-- ==== Sys2Proof/Word.lean ====
section
/-!
DEFINITION. The bit vectors of the machine (spec/00_scope.md rule R5, rule R7): register bytes, instruction words and the
fields of a word. All are unsigned (R7); arithmetic that must not wrap is done on `Nat` through `toNat`.
-/

namespace Sys2Proof

/-- A register or memory byte, `REG_W` = 8 bits (R5). -/
abbrev Byte := BitVec 8

/-- An instruction word, the index register, the program counter, a return address: 16 bits (R5). -/
abbrev Word := BitVec 16

/-- A four-bit field of a word: a register index `x` or `y`, or the row count `n` (spec/30_encoding.md R71). -/
abbrev Nibble := BitVec 4

/-- The twelve-bit immediate `nnn` (spec/30_encoding.md R71). -/
abbrev Imm12 := BitVec 12

end Sys2Proof
end

