-- ==== Sys2Proof/Syntax.lean ====
section
/-!
DEFINITION. The instructions: one constructor for each of the 34 patterns of spec/30_encoding.md R74, in the table's
order. Each argument has exactly the width of its field (R71), so that every value of `Instr` is an instruction the
machine has: every register index names a register (spec/10_state.md R21) and every immediate is legal (R77). A word that
matches no pattern is no `Instr`; the step runs the default arm for it (spec/40_step_cycle.md R94).
-/

namespace Sys2Proof

inductive Instr where
  /-- 00E0, clear the display (R141). -/
  | cls
  /-- 00EE, return from subroutine (R101). -/
  | ret
  /-- 1nnn, jump (R102). -/
  | jp (nnn : Imm12)
  /-- 2nnn, call subroutine (R103). -/
  | call (nnn : Imm12)
  /-- 3xnn, skip if register equals immediate (R104). -/
  | seImm (x : Nibble) (nn : Byte)
  /-- 4xnn, skip if register differs from immediate (R105). -/
  | sneImm (x : Nibble) (nn : Byte)
  /-- 5xy0, skip if registers equal (R106). -/
  | seReg (x y : Nibble)
  /-- 6xnn, load immediate (R111). -/
  | ldImm (x : Nibble) (nn : Byte)
  /-- 7xnn, add immediate, no carry (R112). -/
  | addImm (x : Nibble) (nn : Byte)
  /-- 8xy0, copy register (R113). -/
  | ldReg (x y : Nibble)
  /-- 8xy1, bitwise OR (R114). -/
  | orReg (x y : Nibble)
  /-- 8xy2, bitwise AND (R115). -/
  | andReg (x y : Nibble)
  /-- 8xy3, bitwise exclusive OR (R116). -/
  | xorReg (x y : Nibble)
  /-- 8xy4, add with carry out (R117). -/
  | addReg (x y : Nibble)
  /-- 8xy5, subtract, flag = no borrow (R118). -/
  | subReg (x y : Nibble)
  /-- 8xy6, shift right by one (R119); `y` is carried and not used (R76). -/
  | shr (x y : Nibble)
  /-- 8xy7, reverse subtract, flag = no borrow (R120). -/
  | subn (x y : Nibble)
  /-- 8xyE, shift left by one (R121); `y` is carried and not used (R76). -/
  | shl (x y : Nibble)
  /-- 9xy0, skip if registers differ (R107). -/
  | sneReg (x y : Nibble)
  /-- Annn, load index register (R130). -/
  | ldI (nnn : Imm12)
  /-- Bnnn, jump with offset `V[0]` (R108). -/
  | jpV0 (nnn : Imm12)
  /-- Cxnn, random byte under a mask (R153). -/
  | rnd (x : Nibble) (nn : Byte)
  /-- Dxyn, draw a sprite by XOR, report collision (R142). -/
  | drw (x y n : Nibble)
  /-- Ex9E, skip if key pressed (R150). -/
  | skp (x : Nibble)
  /-- ExA1, skip if key not pressed (R151). -/
  | sknp (x : Nibble)
  /-- Fx07, read the delay timer (R154). -/
  | ldVxDt (x : Nibble)
  /-- Fx0A, wait for a key (R152). -/
  | ldVxK (x : Nibble)
  /-- Fx15, set the delay timer (R155). -/
  | ldDtVx (x : Nibble)
  /-- Fx18, sound timer set, a no-operation (R156); `x` is carried and not used (R76). -/
  | ldStVx (x : Nibble)
  /-- Fx1E, add register to index register (R131). -/
  | addIVx (x : Nibble)
  /-- Fx29, point the index register at a font glyph (R132). -/
  | ldFVx (x : Nibble)
  /-- Fx33, store binary-coded decimal (R133). -/
  | ldBVx (x : Nibble)
  /-- Fx55, store registers 0 to x (R134). -/
  | ldMemVx (x : Nibble)
  /-- Fx65, load registers 0 to x (R135). -/
  | ldVxMem (x : Nibble)
  deriving DecidableEq, Repr

end Sys2Proof
end

