-- ==== Sys2Proof/Decode.lean ====
section
/-!
DEFINITION. The decoder and the encoder (spec/30_encoding.md). `decodeWord` is the procedure of R73 over the nibbles of
R71: a word that matches no pattern is rejected under the name of the part of the unrecognized space it lies in (R75).
`decodeBytes` reads the word big-endian from a list of bytes (spec/20_memory.md R51).
-/

namespace Sys2Proof

/-- Why bytes are no instruction. The first six are the rows of R75's list of unrecognized words, for which the machine
runs the default arm (R94); the last is a byte list too short for a word. -/
inductive DecodeReject where
  /-- 0nnn other than 00E0 and 00EE. -/
  | unrecognized0nnn
  /-- 5xyn with `n` other than 0. -/
  | unrecognized5xyn
  /-- 8xyn with `n` in 8, 9, A, B, C, D, F. -/
  | unrecognized8xyn
  /-- 9xyn with `n` other than 0. -/
  | unrecognized9xyn
  /-- Exnn with `nn` other than 9E and A1. -/
  | unrecognizedExnn
  /-- Fxnn with `nn` none of the nine function bytes. -/
  | unrecognizedFxnn
  /-- Fewer than two bytes: every instruction is two bytes long (R70). -/
  | tooShort
  deriving DecidableEq, Repr

/-- `op`, bits 15:12 (R71). -/
def fieldOp (w : Word) : Nibble := w.extractLsb' 12 4

/-- `x`, bits 11:8 (R71). -/
def fieldX (w : Word) : Nibble := w.extractLsb' 8 4

/-- `y`, bits 7:4 (R71). -/
def fieldY (w : Word) : Nibble := w.extractLsb' 4 4

/-- `n`, bits 3:0 (R71). -/
def fieldN (w : Word) : Nibble := w.extractLsb' 0 4

/-- `nn`, bits 7:0 (R71). -/
def fieldNN (w : Word) : Byte := w.extractLsb' 0 8

/-- `nnn`, bits 11:0 (R71). -/
def fieldNNN (w : Word) : Imm12 := w.extractLsb' 0 12

/-- The patterns 8xyn, rows 10 to 18 of R74, by the last nibble. -/
def decode8 (x y n : Nibble) : Except DecodeReject Instr :=
  match n.toNat with
  | 0x0 => .ok (.ldReg x y)
  | 0x1 => .ok (.orReg x y)
  | 0x2 => .ok (.andReg x y)
  | 0x3 => .ok (.xorReg x y)
  | 0x4 => .ok (.addReg x y)
  | 0x5 => .ok (.subReg x y)
  | 0x6 => .ok (.shr x y)
  | 0x7 => .ok (.subn x y)
  | 0xE => .ok (.shl x y)
  | _   => .error .unrecognized8xyn

/-- The patterns Exnn, rows 24 and 25 of R74, by the low byte. -/
def decodeE (x : Nibble) (nn : Byte) : Except DecodeReject Instr :=
  match nn.toNat with
  | 0x9E => .ok (.skp x)
  | 0xA1 => .ok (.sknp x)
  | _    => .error .unrecognizedExnn

/-- The patterns Fxnn, rows 26 to 34 of R74, by the low byte. -/
def decodeF (x : Nibble) (nn : Byte) : Except DecodeReject Instr :=
  match nn.toNat with
  | 0x07 => .ok (.ldVxDt x)
  | 0x0A => .ok (.ldVxK x)
  | 0x15 => .ok (.ldDtVx x)
  | 0x18 => .ok (.ldStVx x)
  | 0x1E => .ok (.addIVx x)
  | 0x29 => .ok (.ldFVx x)
  | 0x33 => .ok (.ldBVx x)
  | 0x55 => .ok (.ldMemVx x)
  | 0x65 => .ok (.ldVxMem x)
  | _    => .error .unrecognizedFxnn

/-- The decoder (R73): total, every hexadecimal digit of a pattern compared, every letter free (D19). -/
def decodeWord (w : Word) : Except DecodeReject Instr :=
  let x := fieldX w
  let y := fieldY w
  let n := fieldN w
  match (fieldOp w).toNat with
  | 0x0 => if w = 0x00E0 then .ok .cls else if w = 0x00EE then .ok .ret else .error .unrecognized0nnn
  | 0x1 => .ok (.jp (fieldNNN w))
  | 0x2 => .ok (.call (fieldNNN w))
  | 0x3 => .ok (.seImm x (fieldNN w))
  | 0x4 => .ok (.sneImm x (fieldNN w))
  | 0x5 => if n = 0 then .ok (.seReg x y) else .error .unrecognized5xyn
  | 0x6 => .ok (.ldImm x (fieldNN w))
  | 0x7 => .ok (.addImm x (fieldNN w))
  | 0x8 => decode8 x y n
  | 0x9 => if n = 0 then .ok (.sneReg x y) else .error .unrecognized9xyn
  | 0xA => .ok (.ldI (fieldNNN w))
  | 0xB => .ok (.jpV0 (fieldNNN w))
  | 0xC => .ok (.rnd x (fieldNN w))
  | 0xD => .ok (.drw x y n)
  | 0xE => decodeE x (fieldNN w)
  | _   => decodeF x (fieldNN w)

/-- `{hi, lo}`: the big-endian word of two adjacent bytes, the byte at the lower address first (R51). -/
def wordOfBytes (hi lo : Byte) : Word := hi ++ lo

/-- The high byte of a word, which stands at the lower address (R51). -/
def highByte (w : Word) : Byte := w.extractLsb' 8 8

/-- The low byte of a word, which stands at the higher address (R51). -/
def lowByte (w : Word) : Byte := w.extractLsb' 0 8

/-- Decoding of a list of bytes: the instruction of the first two and the bytes after it (R51, R70). -/
def decodeBytes (bs : List Byte) : Except DecodeReject (Instr × List Byte) :=
  match bs with
  | hi :: lo :: rest =>
    match decodeWord (wordOfBytes hi lo) with
    | .ok i    => .ok (i, rest)
    | .error e => .error e
  | _ => .error .tooShort

/-- Format A: `op`, then `nnn` (R72). -/
def encodeA (op : Nibble) (nnn : Imm12) : Word := op ++ nnn

/-- Format I (`op`, `x`, `nn`) and format X (`op`, `x`, a fixed function byte) (R72). -/
def encodeI (op x : Nibble) (nn : Byte) : Word := op ++ x ++ nn

/-- Format R (`op`, `x`, `y`, a fixed sub-opcode) and format D (`op`, `x`, `y`, `n`) (R72). -/
def encodeR (op x y n : Nibble) : Word := op ++ x ++ y ++ n

/-- The word of an instruction, from the formats of R72 and the fixed digits of R74. -/
def encode (i : Instr) : Word :=
  match i with
  | .cls         => 0x00E0
  | .ret         => 0x00EE
  | .jp nnn      => encodeA 0x1 nnn
  | .call nnn    => encodeA 0x2 nnn
  | .seImm x nn  => encodeI 0x3 x nn
  | .sneImm x nn => encodeI 0x4 x nn
  | .seReg x y   => encodeR 0x5 x y 0x0
  | .ldImm x nn  => encodeI 0x6 x nn
  | .addImm x nn => encodeI 0x7 x nn
  | .ldReg x y   => encodeR 0x8 x y 0x0
  | .orReg x y   => encodeR 0x8 x y 0x1
  | .andReg x y  => encodeR 0x8 x y 0x2
  | .xorReg x y  => encodeR 0x8 x y 0x3
  | .addReg x y  => encodeR 0x8 x y 0x4
  | .subReg x y  => encodeR 0x8 x y 0x5
  | .shr x y     => encodeR 0x8 x y 0x6
  | .subn x y    => encodeR 0x8 x y 0x7
  | .shl x y     => encodeR 0x8 x y 0xE
  | .sneReg x y  => encodeR 0x9 x y 0x0
  | .ldI nnn     => encodeA 0xA nnn
  | .jpV0 nnn    => encodeA 0xB nnn
  | .rnd x nn    => encodeI 0xC x nn
  | .drw x y n   => encodeR 0xD x y n
  | .skp x       => encodeI 0xE x 0x9E
  | .sknp x      => encodeI 0xE x 0xA1
  | .ldVxDt x    => encodeI 0xF x 0x07
  | .ldVxK x     => encodeI 0xF x 0x0A
  | .ldDtVx x    => encodeI 0xF x 0x15
  | .ldStVx x    => encodeI 0xF x 0x18
  | .addIVx x    => encodeI 0xF x 0x1E
  | .ldFVx x     => encodeI 0xF x 0x29
  | .ldBVx x     => encodeI 0xF x 0x33
  | .ldMemVx x   => encodeI 0xF x 0x55
  | .ldVxMem x   => encodeI 0xF x 0x65

/-- The instruction's bytes as they stand in memory, high byte first (R51). -/
def encodeBytes (i : Instr) : List Byte := [highByte (encode i), lowByte (encode i)]

/-- The bytes, as the hardware stores them, of a table word of `nbits` bits: bits above `nbits` are 0. -/
def tableBytes (nbits w : Nat) : List Byte :=
  let word : Word := BitVec.ofNat 16 (w % 2 ^ nbits)
  [highByte word, lowByte word]

/-- What the decoder reads from an instruction whose bits are `w`, numbered as spec/opcode_table.json numbers them. -/
def decodeTableWord (nbits w : Nat) : Option Instr :=
  match decodeBytes (tableBytes nbits w) with
  | .ok (i, _) => some i
  | .error _   => none

end Sys2Proof
end

