-- ==== Sys2Proof/Config.lean ====
section
/-!
DEFINITION. The sizes the spec fixes (spec/00_scope.md R5) and the one free value it leaves open (`rnd`, R6). The other
parameters of R6 have defaults that the rules of the spec state; they stand in Sys2Proof/Machine/Parameters.lean.
-/

namespace Sys2Proof.Config

/-- `MEM_SIZE`: bytes of memory, addresses 0 to 4095 (R5). -/
abbrev memSize : Nat := 4096

/-- `PROG_BASE`: load address of the program and reset value of the pc (R5). -/
abbrev progBase : Nat := 0x200

/-- `FONT_GLYPHS` times `GLYPH_BYTES`: the 80 font bytes, at `FONT_BASE` = 0 (R5). -/
abbrev fontSize : Nat := 80

/-- `STACK_DEPTH` (R5). -/
abbrev stackDepth : Nat := 16

/-- The random byte of a step (spec/45_keypad_timer_random.md R157): "a free draw per step, under no law". It has no body
that a proof could use, so a claim about Cxnn holds for every value. The argument is the model's own count of draws
(`State.draws`), so that each Cxnn meets a fresh byte. Free value, safe: notes/assumptions/2.md. -/
opaque rnd : Nat → Byte

end Sys2Proof.Config
end

