-- ==== Sys2Proof/Machine/State.lean ====
section
/-!
DEFINITION. The state of the block (spec/10_state.md R20: "the complete state of the block is the following, and nothing
else"), the reasons a step of the model can stop, and the state after reset (R40).
-/

namespace Sys2Proof.Machine

/-- `MEM` (R29) as the list of the bytes that differ from their reset content, addresses strictly rising. What an
unlisted address reads as is `unlistedByte` (Sys2Proof/Machine/Parameters.lean); the canonical form is `Memory.wf`
(Sys2Proof/Machine/Ops.lean). -/
abbrev Memory := List Host.Cell

/-- `FB` (R33): 32 rows, top first, each of 64 one-bit pixels; column `c` (0 at the left) is bit `c` of its row. Read one
pixel with `FrameBuffer.pixel`. -/
abbrev FrameBuffer := Vector (BitVec 64) 32

/-- `FAULT.cause` (R36): the names of spec/60_exceptions.md R161; their codes are `FaultCause.code`. -/
inductive FaultCause where
  /-- Code 0: no fault. -/
  | none
  /-- Code 1: the fetch of a step with `pc >= 4095` (R53). -/
  | fetchOutOfRange
  /-- Code 2: 2nnn with a full stack (R103). -/
  | stackOverflow
  /-- Code 3: 00EE with an empty stack (R101). -/
  | stackUnderflow
  /-- Code 4: Dxyn, Fx33, Fx55 or Fx65 touching an address of 4096 or more (R63). -/
  | dataOutOfRange
  /-- Code 5: Ex9E or ExA1 with a key index above 15 (R158). -/
  | keyIndexOutOfRange
  deriving DecidableEq, Repr

/-- `FAULT` (R36): the cause, the address of the instruction whose step faulted, and the offending value. -/
structure FaultRecord where
  cause : FaultCause
  pc    : Word
  info  : Word
  deriving DecidableEq, Repr

/-- The cleared record: "`FAULT.cause = 0` (no fault), `FAULT.pc = 0`, `FAULT.info = 0`" (R36). -/
def FaultRecord.cleared : FaultRecord := ⟨.none, 0, 0⟩

/-- Reasons the model stops with a fault. The fatal faults of the HARDWARE (R161) are none of these: the spec describes
their entry (R162), so that a step which meets one answers a next state, halted, with the record written. -/
inductive Fault where
  /-- Raised by the host operation `load` alone, after the first step since the last reset (never by `step` or `exec`):
  the spec "gives no meaning to a load in the middle of a run" (spec/70_reset_and_hazards.md R193; V16: stuck). Safe:
  nothing can be proved of what follows such a load. -/
  | loadDuringRun
  deriving DecidableEq, Repr

/-- Reasons the model gives an instruction no meaning. -/
inductive Refusal where
  /-- Raised by an arm of `exec` for an instruction that has no meaning yet; no arm is left that raises it. Safe. -/
  | notModelled (mnemonic : String)
  deriving DecidableEq, Repr

/-- The state of the block, field by field as R20 lists it, and one field of the model's own (`draws`). -/
structure State where
  /-- `MEM`, 4096 bytes (R29). -/
  mem   : Memory
  /-- `V[0..15]`, 16 registers of 8 bits; `VF` is `V[15]` (R21, R22). -/
  v     : Vector Byte 16
  /-- `I`, the index register, 16 bits (R25). -/
  i     : Word
  /-- `pc`, 16 bits; between steps the address of the next instruction (R23). -/
  pc    : Word
  /-- `STACK[0..15]`, 16 return addresses; no part of `MEM` (R26). -/
  stack : Vector Word 16
  /-- `SP`, 0 to 16: the next free slot (R27). -/
  sp    : Fin 17
  /-- `DT`, the delay timer (R28). -/
  dt    : Byte
  /-- `FB`, the pixels (R33). -/
  fb    : FrameBuffer
  /-- `DIRTY`, the redraw flag (R34). -/
  dirty : Bool
  /-- `KEY[0..15]`, true = pressed (R35). -/
  key   : Vector Bool 16
  /-- `HALT`, the halt latch (R36). -/
  halt  : Bool
  /-- `FAULT`, the fault record (R36). -/
  fault : FaultRecord
  /-- THE MODEL'S OWN FIELD: how many random bytes Cxnn has drawn, the index of the next free one (`Config.rnd`, R157;
  notes/assumptions/2.md). No state of the hardware. -/
  draws : Nat
  deriving DecidableEq, Repr

/-- The state after reset (R40, spec/70_reset_and_hazards.md R190) with the default font (R31). Memory lists nothing: an
unlisted byte reads as its reset content. `draws := 0` is the model's own (DESIGN CHOICE, notes/assumptions/2.md). -/
def State.reset : State where
  mem   := []
  v     := Vector.replicate 16 0
  i     := 0
  pc    := 0x200
  stack := Vector.replicate 16 0
  sp    := 0
  dt    := 0
  fb    := Vector.replicate 32 0
  dirty := false
  key   := Vector.replicate 16 false
  halt  := false
  fault := FaultRecord.cleared
  draws := 0

end Sys2Proof.Machine
end

