-- ==== Sys2Proof/Machine/Parameters.lean ====
section
/-!
DEFINITION. The parameters of spec/00_scope.md R6 at the defaults that the rules state: the font bytes, the bit order of a
sprite byte, the fault codes. (`KEY_SCAN` is `keyScan` in Sys2Proof/Machine/Operands.lean; `rnd` is `Config.rnd`.)
-/

namespace Sys2Proof.Machine

/-- `FONT[0..79]` (spec/10_state.md R31, D9): row `d` of the table is glyph `d`, at bytes `5 * d` to `5 * d + 4` (R30). -/
def fontTable : List Byte := [
  0xF0, 0x90, 0x90, 0x90, 0xF0,
  0x20, 0x60, 0x20, 0x20, 0x70,
  0xF0, 0x10, 0xF0, 0x80, 0xF0,
  0xF0, 0x10, 0xF0, 0x10, 0xF0,
  0x90, 0x90, 0xF0, 0x10, 0x10,
  0xF0, 0x80, 0xF0, 0x10, 0xF0,
  0xF0, 0x80, 0xF0, 0x90, 0xF0,
  0xF0, 0x10, 0x20, 0x40, 0x40,
  0xF0, 0x90, 0xF0, 0x90, 0xF0,
  0xF0, 0x90, 0xF0, 0x10, 0xF0,
  0xF0, 0x90, 0xF0, 0x90, 0x90,
  0xE0, 0x90, 0xE0, 0x90, 0xE0,
  0xF0, 0x80, 0x80, 0x80, 0xF0,
  0xE0, 0x90, 0x90, 0x90, 0xE0,
  0xF0, 0x80, 0xF0, 0x80, 0xF0,
  0xF0, 0x80, 0xF0, 0x80, 0x80]

/-- What an unlisted address of memory reads as: its reset content (spec/10_state.md R40), the font below address 80 and
0 above it. -/
def unlistedByte (a : Nat) : Byte := fontTable.getD a 0

/-- `SPRITE_MSB_LEFT` (spec/44_display.md R143, D8): bit 7 of a sprite byte is the leftmost pixel. -/
def spriteMsbLeft : Bool := true

/-- The numeric codes of the fault causes (spec/60_exceptions.md R161, D4). -/
def FaultCause.code (c : FaultCause) : BitVec 3 :=
  match c with
  | .none               => 0
  | .fetchOutOfRange    => 1
  | .stackOverflow      => 2
  | .stackUnderflow     => 3
  | .dataOutOfRange     => 4
  | .keyIndexOutOfRange => 5

end Sys2Proof.Machine
end

