-- ==== Sys2Proof/Machine/Ops.lean ====
section
/-!
DEFINITION. The named operations over the state: memory and its access primitives (spec/20_memory.md), the registers, the
pc, the return stack, the framebuffer and its blitter (spec/44_display.md R140), and the fault entry (spec/60_exceptions.md
R162). The meanings of the instructions are written over these. There is no return from a fault (R166).
-/

namespace Sys2Proof.Machine

/-! ### Memory -/

/-- The byte of memory at an address: the listed one, or the reset content. -/
def Memory.peek (m : Memory) (a : Nat) : Byte :=
  match m with
  | []          => unlistedByte a
  | (b, w) :: r => if a = b then w else Memory.peek r a

/-- Memory with one byte replaced, in canonical form: kept sorted, and an entry equal to the reset content removed. -/
def Memory.poke (m : Memory) (a : Nat) (v : Byte) : Memory :=
  match m with
  | [] => if v = unlistedByte a then [] else [(a, v)]
  | (b, w) :: r =>
    if a < b then (if v = unlistedByte a then (b, w) :: r else (a, v) :: (b, w) :: r)
    else if a = b then (if v = unlistedByte a then r else (a, v) :: r)
    else (b, w) :: Memory.poke r a v

/-- The canonical form from address `lo` up: addresses strictly rising, all below `memSize`, no entry equal to the reset
content of its address. -/
def Memory.wfFrom (lo : Nat) (m : Memory) : Bool :=
  match m with
  | []          => true
  | (a, w) :: r => decide (lo ≤ a) && decide (a < Config.memSize) && (w != unlistedByte a) && Memory.wfFrom (a + 1) r

/-- The canonical form of a memory; equal memories in this form are equal data. -/
def Memory.wf (m : Memory) : Bool := Memory.wfFrom 0 m

/-- `MemRead(a, 1)` (R55): none where it raises `DataOutOfRange`, "if `a >= 4096`", never a wrap. -/
def memRead (m : Memory) (a : Nat) : Option Byte :=
  if Config.memSize ≤ a then none else some (m.peek a)

/-- `MemWrite(a, 1, v)` (R56): none where it raises `DataOutOfRange`. -/
def memWrite (m : Memory) (a : Nat) (v : Byte) : Option Memory :=
  if Config.memSize ≤ a then none else some (m.poke a v)

/-- `n` reads at `a`, `a + 1`, … (R52: the lowest address first); none as soon as one of them raises. -/
def readSpan (m : Memory) (a n : Nat) : Option (List Byte) :=
  match n with
  | 0     => some []
  | k + 1 =>
    match memRead m a, readSpan m (a + 1) k with
    | some b, some bs => some (b :: bs)
    | _, _            => none

/-- Writes of `bs` at `a`, `a + 1`, …; none as soon as one of them raises, so that nothing is written then (R63). -/
def writeSpan (m : Memory) (a : Nat) (bs : List Byte) : Option Memory :=
  match bs with
  | []     => some m
  | b :: r =>
    match memWrite m a b with
    | some m' => writeSpan m' (a + 1) r
    | none    => none

/-! ### Registers, pc, stack -/

/-- `V[x]` (R8, R21). -/
def State.reg (s : State) (x : Nibble) : Byte := s.v[x.toNat]'x.isLt

/-- `V[x] <- b`. No register is hard-wired (R21). -/
def State.setReg (s : State) (x : Nibble) (b : Byte) : State := { s with v := s.v.set x.toNat b x.isLt }

/-- `pc <- w` (spec/41_flow.md R100: no alignment requirement and no range check at the transfer). -/
def State.setPc (s : State) (w : Word) : State := { s with pc := w }

/-- `I <- w`. -/
def State.setI (s : State) (w : Word) : State := { s with i := w }

/-- `pc <- pc + 2`: the advance of spec/40_step_cycle.md R92, and the skip on top of it. -/
def State.advance (s : State) : State := { s with pc := s.pc + 2 }

/-- The advance, and the advance once more when the condition of a skip holds: `a + 4`, else `a + 2` (R92). -/
def State.skipIf (s : State) (c : Bool) : State := if c then s.advance.advance else s.advance

/-- The push of 2nnn: "write pc at current stack pointer, then increment" (spec/41_flow.md R103); none when `SP = 16`. -/
def State.push (s : State) (w : Word) : Option State :=
  if h : s.sp.val < 16 then
    some { s with stack := s.stack.set s.sp.val w h, sp := ⟨s.sp.val + 1, by omega⟩ }
  else none

/-- The pop of 00EE: the popped entry and the state with `SP` decremented first (R101); none when `SP = 0`. The entry
keeps its value in `STACK` (spec/10_state.md R26). -/
def State.pop (s : State) : Option (Word × State) :=
  if h : 0 < s.sp.val then
    some (s.stack[s.sp.val - 1]'(by omega), { s with sp := ⟨s.sp.val - 1, by omega⟩ })
  else none

/-! ### The fault entry -/

/-- `raise <Fault>(info)` (spec/60_exceptions.md R162), on the state as it stood when the step began: every write of the
step is cancelled, `HALT <- 1`, `FAULT <- (cause, pc of the instruction, info)`; control goes nowhere. -/
def State.raise (s : State) (cause : FaultCause) (info : Word) : State :=
  { s with halt := true, fault := ⟨cause, s.pc, info⟩ }

/-- `raise DataOutOfRange(max(I, 4096))`: the lowest offending address of a span at `I` (spec/20_memory.md R63). -/
def State.raiseData (s : State) : State :=
  s.raise .dataOutOfRange (BitVec.ofNat 16 (max s.i.toNat Config.memSize))

/-! ### The blitter -/

/-- `FB[r][c]` (R33). -/
def FrameBuffer.pixel (fb : FrameBuffer) (r : Fin 32) (c : Fin 64) : Bool := fb[r.val].getLsbD c.val

/-- `FB[r][c] <- FB[r][c] xor 1`. -/
def FrameBuffer.toggle (fb : FrameBuffer) (r : Fin 32) (c : Fin 64) : FrameBuffer :=
  fb.set r.val (fb[r.val] ^^^ BitVec.twoPow 64 c.val)

/-- The display's `clear()`: every pixel 0 (R140, R141). -/
def FrameBuffer.clear : FrameBuffer := Vector.replicate 32 0

/-- The bit of a sprite byte at column offset `col`: `b[7 - col]` (R143). -/
def spriteBit (b : Byte) (col : Nat) : Bool := if spriteMsbLeft then b.getLsbD (7 - col) else b.getLsbD col

/-- The row a sprite row lands on: `(y0 + row) mod 32` (R140; `Fin.ofNat` reduces modulo 32). -/
def pixelRow (y0 : Byte) (row : Nat) : Fin 32 := Fin.ofNat 32 (y0.toNat + row)

/-- The column a sprite bit lands on: `(x0 + col) mod 64` (R140). -/
def pixelCol (x0 : Byte) (col : Nat) : Fin 64 := Fin.ofNat 64 (x0.toNat + col)

/-- One pixel of a draw: a sprite bit of 1 toggles its pixel, and collides when the pixel was set (R142). The pair is the
framebuffer and the collision so far. -/
def drawPixel (x0 y0 : Byte) (row : Nat) (b : Byte) (acc : FrameBuffer × Bool) (col : Nat) : FrameBuffer × Bool :=
  if spriteBit b col then
    (acc.1.toggle (pixelRow y0 row) (pixelCol x0 col), acc.2 || acc.1.pixel (pixelRow y0 row) (pixelCol x0 col))
  else acc

/-- One row of a draw: the eight columns of the byte, in order (R142). -/
def drawRow (x0 y0 : Byte) (row : Nat) (b : Byte) (acc : FrameBuffer × Bool) : FrameBuffer × Bool :=
  [0, 1, 2, 3, 4, 5, 6, 7].foldl (drawPixel x0 y0 row b) acc

/-- The rows of a draw from row number `row` down (R142). -/
def drawRows (x0 y0 : Byte) (row : Nat) (sprite : List Byte) (acc : FrameBuffer × Bool) : FrameBuffer × Bool :=
  match sprite with
  | []     => acc
  | b :: r => drawRows x0 y0 (row + 1) r (drawRow x0 y0 row b acc)

/-- The display's `draw(x0, y0, sprite_bytes) -> collision` (R140): the framebuffer after it, and the collision bit. -/
def FrameBuffer.draw (fb : FrameBuffer) (x0 y0 : Byte) (sprite : List Byte) : FrameBuffer × Bool :=
  drawRows x0 y0 0 sprite (fb, false)

end Sys2Proof.Machine
end

