-- ==== Sys2Proof/Machine/Operands.lean ====
section
/-!
DEFINITION. The operand forms of the instructions (spec/30_encoding.md R77): immediates, register blocks, font addresses,
decimal digits and key latches. The one data addressing mode, `I + k`, is the span of Sys2Proof/Machine/Ops.lean (R136).
-/

namespace Sys2Proof.Machine

/-- `zext_16(nnn)`: an address immediate as a word (R77). -/
def immWord (nnn : Imm12) : Word := nnn.zeroExtend 16

/-- `zext_16(v)`: a register byte as a word (R77). -/
def byteWord (b : Byte) : Word := b.zeroExtend 16

/-- `V[0]` to `V[x]`, inclusive (spec/43_index_memory.md R134). -/
def State.regBlock (s : State) (x : Nibble) : List Byte := s.v.toList.take (x.toNat + 1)

/-- Register writes `V[k] <- b`, `V[k + 1] <- …` for the bytes of a block, those above `V[15]` left out (R135 never
gives a block that long). -/
def setRegsFrom (v : Vector Byte 16) (k : Nat) (bs : List Byte) : Vector Byte 16 :=
  match bs with
  | []     => v
  | b :: r => setRegsFrom (if h : k < 16 then v.set k b h else v) (k + 1) r

/-- `V[0] <- …` to `V[x] <- …` from the bytes of a block (R135). -/
def State.setRegBlock (s : State) (bs : List Byte) : State := { s with v := setRegsFrom s.v 0 bs }

/-- `5 * zext_16(d)`: the address of glyph `d`, `FONT_BASE + GLYPH_BYTES * d`, with no mask (R132, D11). -/
def glyphAddress (d : Byte) : Word := 5 * byteWord d

/-- The three decimal digits of a byte, hundreds first (R133). -/
def bcdDigits (b : Byte) : List Byte :=
  [BitVec.ofNat 8 (b.toNat / 100), BitVec.ofNat 8 (b.toNat / 10 % 10), BitVec.ofNat 8 (b.toNat % 10)]

/-- `is_pressed(index)` (spec/45_keypad_timer_random.md R158): none for an index of 16 to 255, which raises. -/
def State.isPressed (s : State) (k : Byte) : Option Bool :=
  if h : k.toNat < 16 then some (s.key[k.toNat]'h) else none

/-- The sixteen key indices, lowest first. -/
def keyIndices : List Nibble := [0, 1, 2, 3, 4, 5, 6, 7, 8, 9, 10, 11, 12, 13, 14, 15]

/-- `KEY_SCAN` (R152, D10): the least pressed key, if any. -/
def State.keyScan (s : State) : Option Nibble := keyIndices.find? (fun k => s.key[k.toNat]'k.isLt)

end Sys2Proof.Machine
end

