-- ==== Sys2Proof/Machine/Flags.lean ====
section
/-!
DEFINITION. The flag computations (spec/10_state.md R22): the value six instructions write to `VF`, and the writing of
result and flag, flag last (spec/00_scope.md R9). There is no flag register apart from `VF`.
-/

namespace Sys2Proof.Machine

/-- A flag as the byte written to `VF`: "always exactly 0 or 1, as an 8-bit value" (R22). -/
def flagByte (f : Bool) : Byte := if f then 1 else 0

/-- Carry of 8xy4: `V[x] + V[y] > 255` (R117). -/
def carryOut (a b : Byte) : Bool := decide (a.toNat + b.toNat > 255)

/-- No borrow of `a - b`: `a >= b` (R118, R120). -/
def noBorrow (a b : Byte) : Bool := decide (b.toNat ≤ a.toNat)

/-- The bit a right shift by one drops (R119). -/
def shiftedOutLow (a : Byte) : Bool := a.getLsbD 0

/-- The bit a left shift by one drops (R121). -/
def shiftedOutHigh (a : Byte) : Bool := a.getLsbD 7

/-- `VF <- flag`. -/
def State.setFlag (s : State) (f : Bool) : State := s.setReg 15 (flagByte f)

/-- Result, then flag: with `x = 15` the flag is what `VF` holds afterwards (R9, R123, D7). -/
def State.setRegFlag (s : State) (x : Nibble) (b : Byte) (f : Bool) : State := (s.setReg x b).setFlag f

end Sys2Proof.Machine
end

