-- ==== Sys2Proof/Machine/Cycle.lean ====
section
/-!
DEFINITION. The parts of a step around `exec` (spec/40_step_cycle.md): the fetch, the default arm, the timer tick and the
end of a step. Sys2Proof/Machine/Step.lean puts them together.
-/

namespace Sys2Proof.Machine

open Host (Outcome)

/-- `Fetch(pc)` (R91; spec/20_memory.md R53): the big-endian word of the two bytes at `pc` and `pc + 1`, none where either
lies at 4096 or above. No wrap, no alignment (R54). -/
def State.fetch (s : State) : Option Word :=
  match memRead s.mem s.pc.toNat, memRead s.mem (s.pc.toNat + 1) with
  | some hi, some lo => some (wordOfBytes hi lo)
  | _, _             => none

/-- The default arm (R94), for a word that matches no pattern: only the advance. The report is an output of the step
(Sys2Proof/Machine/Outputs.lean). -/
def execUnrecognized (s : State) : State := s.advance

/-- The tick (R95): `if DT > 0 then DT <- DT - 1`. -/
def State.tick (s : State) : State := if s.dt = 0 then s else { s with dt := s.dt - 1 }

/-- The end of a step: a completed step ticks; a step that raised (it set `HALT`) does not (R95, R162). -/
def finishStep (o : Outcome State Fault Refusal) : Outcome State Fault Refusal :=
  match o with
  | .next t    => .next (if t.halt then t else t.tick)
  | .fault r   => .fault r
  | .refused r => .refused r

end Sys2Proof.Machine
end

