-- ==== Sys2Proof/Machine/Alu.lean ====
section
/-!
DEFINITION. Register load and arithmetic (spec/42_alu.md): 6xnn, 7xnn, 8xy0 to 8xy7, 8xyE. Arithmetic is unsigned and
wraps modulo 256 (R110), which is `BitVec` addition, subtraction and shifts at width 8. Operands are read before any
write (R123).
-/

namespace Sys2Proof.Machine

open Host (Outcome)

/-- 6xnn (R111): `V[x] <- nn`. -/
def execLdImm (x : Nibble) (nn : Byte) (s : State) : Outcome State Fault Refusal :=
  .next (s.advance.setReg x nn)

/-- 7xnn (R112): `V[x] <- (V[x] + nn) mod 256`; no flag. -/
def execAddImm (x : Nibble) (nn : Byte) (s : State) : Outcome State Fault Refusal :=
  .next (s.advance.setReg x (s.reg x + nn))

/-- 8xy0 (R113): `V[x] <- V[y]`. -/
def execLdReg (x y : Nibble) (s : State) : Outcome State Fault Refusal :=
  .next (s.advance.setReg x (s.reg y))

/-- 8xy1 (R114): `V[x] <- V[x] or V[y]`; no flag. -/
def execOrReg (x y : Nibble) (s : State) : Outcome State Fault Refusal :=
  .next (s.advance.setReg x (s.reg x ||| s.reg y))

/-- 8xy2 (R115): `V[x] <- V[x] and V[y]`; no flag. -/
def execAndReg (x y : Nibble) (s : State) : Outcome State Fault Refusal :=
  .next (s.advance.setReg x (s.reg x &&& s.reg y))

/-- 8xy3 (R116): `V[x] <- V[x] xor V[y]`; no flag. -/
def execXorReg (x y : Nibble) (s : State) : Outcome State Fault Refusal :=
  .next (s.advance.setReg x (s.reg x ^^^ s.reg y))

/-- 8xy4 (R117): `V[x] <- s mod 256`, `VF <- s > 255`, for the 9-bit sum `s`. -/
def execAddReg (x y : Nibble) (s : State) : Outcome State Fault Refusal :=
  .next (s.advance.setRegFlag x (s.reg x + s.reg y) (carryOut (s.reg x) (s.reg y)))

/-- 8xy5 (R118): `V[x] <- (V[x] - V[y]) mod 256`, `VF <- V[x] >= V[y]`. -/
def execSubReg (x y : Nibble) (s : State) : Outcome State Fault Refusal :=
  .next (s.advance.setRegFlag x (s.reg x - s.reg y) (noBorrow (s.reg x) (s.reg y)))

/-- 8xy6 (R119): `V[x] <- V[x] div 2`, `VF <-` old bit 0; `V[y]` is not read. -/
def execShr (x _y : Nibble) (s : State) : Outcome State Fault Refusal :=
  .next (s.advance.setRegFlag x (s.reg x >>> 1) (shiftedOutLow (s.reg x)))

/-- 8xy7 (R120): `V[x] <- (V[y] - V[x]) mod 256`, `VF <- V[y] >= V[x]`. -/
def execSubn (x y : Nibble) (s : State) : Outcome State Fault Refusal :=
  .next (s.advance.setRegFlag x (s.reg y - s.reg x) (noBorrow (s.reg y) (s.reg x)))

/-- 8xyE (R121): `V[x] <- (V[x] * 2) mod 256`, `VF <-` old bit 7; `V[y]` is not read. -/
def execShl (x _y : Nibble) (s : State) : Outcome State Fault Refusal :=
  .next (s.advance.setRegFlag x (s.reg x <<< 1) (shiftedOutHigh (s.reg x)))

end Sys2Proof.Machine
end

