-- ==== Sys2Proof/Machine/Display.lean ====
section
/-!
DEFINITION. Display (spec/44_display.md): 00E0 is one `clear()`, Dxyn one `draw()` (R140).
-/

namespace Sys2Proof.Machine

open Host (Outcome)

/-- 00E0 (R141): every pixel 0, `DIRTY <- 1`. -/
def execCls (s : State) : Outcome State Fault Refusal :=
  .next { s.advance with fb := FrameBuffer.clear, dirty := true }

/-- Dxyn (R142): draw the `n` bytes at `I` at column `V[x]`, row `V[y]`; `VF <-` collision; `DIRTY <- 1`. With `n = 0` no
byte is read and the two final writes still happen (D22). -/
def execDrw (x y n : Nibble) (s : State) : Outcome State Fault Refusal :=
  match readSpan s.mem s.i.toNat n.toNat with
  | some sprite =>
    let r := s.fb.draw (s.reg x) (s.reg y) sprite
    .next { s.advance.setFlag r.2 with fb := r.1, dirty := true }
  | none => .next s.raiseData

end Sys2Proof.Machine
end

