-- ==== Sys2Proof/Machine/Flow.lean ====
section
/-!
DEFINITION. Control transfer (spec/41_flow.md): 00EE, 1nnn, 2nnn, 3xnn, 4xnn, 5xy0, 9xy0, Bnnn.

Here and in the other families a meaning takes the state at the START of the step, its pc still the address `a` of the
instruction, and leaves the pc as the table of spec/10_state.md R23 says; so a raise needs nothing undone (R162). The tick
follows in Sys2Proof/Machine/Cycle.lean.
-/

namespace Sys2Proof.Machine

open Host (Outcome)

/-- 00EE (R101): `SP <- SP - 1`, `pc <- STACK[SP]`; `StackUnderflow(0)` when `SP = 0`. -/
def execRet (s : State) : Outcome State Fault Refusal :=
  match s.pop with
  | some (w, t) => .next (t.setPc w)
  | none        => .next (s.raise .stackUnderflow 0)

/-- 1nnn (R102): `pc <- zext_16(nnn)`, nothing added afterwards. -/
def execJp (nnn : Imm12) (s : State) : Outcome State Fault Refusal :=
  .next (s.setPc (immWord nnn))

/-- 2nnn (R103): push the advanced pc `a + 2`, `pc <- zext_16(nnn)`; `StackOverflow(16)` when `SP = 16`. -/
def execCall (nnn : Imm12) (s : State) : Outcome State Fault Refusal :=
  match s.push s.advance.pc with
  | some t => .next (t.setPc (immWord nnn))
  | none   => .next (s.raise .stackOverflow 16)

/-- 3xnn (R104): skip if `V[x] = nn`. -/
def execSeImm (x : Nibble) (nn : Byte) (s : State) : Outcome State Fault Refusal :=
  .next (s.skipIf (s.reg x == nn))

/-- 4xnn (R105): skip if `V[x] != nn`. -/
def execSneImm (x : Nibble) (nn : Byte) (s : State) : Outcome State Fault Refusal :=
  .next (s.skipIf (s.reg x != nn))

/-- 5xy0 (R106): skip if `V[x] = V[y]`. -/
def execSeReg (x y : Nibble) (s : State) : Outcome State Fault Refusal :=
  .next (s.skipIf (s.reg x == s.reg y))

/-- 9xy0 (R107): skip if `V[x] != V[y]`. -/
def execSneReg (x y : Nibble) (s : State) : Outcome State Fault Refusal :=
  .next (s.skipIf (s.reg x != s.reg y))

/-- Bnnn (R108): `pc <- zext_16(nnn) + zext_16(V[0])`, not reduced modulo 4096. -/
def execJpV0 (nnn : Imm12) (s : State) : Outcome State Fault Refusal :=
  .next (s.setPc (immWord nnn + byteWord (s.reg 0)))

end Sys2Proof.Machine
end

