-- ==== Sys2Proof/Machine/IndexMemory.lean ====
section
/-!
DEFINITION. Index register and memory (spec/43_index_memory.md): Annn, Fx1E, Fx29, Fx33, Fx55, Fx65. An access beyond
4095 raises `DataOutOfRange` for the whole instruction (spec/20_memory.md R63).
-/

namespace Sys2Proof.Machine

open Host (Outcome)

/-- Annn (R130): `I <- zext_16(nnn)`. -/
def execLdI (nnn : Imm12) (s : State) : Outcome State Fault Refusal :=
  .next (s.advance.setI (immWord nnn))

/-- Fx1E (R131): `I <- (I + zext_16(V[x])) mod 65536`; `VF` unchanged, no fault (D12). -/
def execAddIVx (x : Nibble) (s : State) : Outcome State Fault Refusal :=
  .next (s.advance.setI (s.i + byteWord (s.reg x)))

/-- Fx29 (R132): `I <- 5 * zext_16(V[x])`, also for `V[x] > 15` (D11). -/
def execLdFVx (x : Nibble) (s : State) : Outcome State Fault Refusal :=
  .next (s.advance.setI (glyphAddress (s.reg x)))

/-- Fx33 (R133): the three decimal digits of `V[x]` to `I`, `I + 1`, `I + 2`; `I` unchanged. -/
def execLdBVx (x : Nibble) (s : State) : Outcome State Fault Refusal :=
  match writeSpan s.mem s.i.toNat (bcdDigits (s.reg x)) with
  | some m => .next { s.advance with mem := m }
  | none   => .next s.raiseData

/-- Fx55 (R134): `V[0]` to `V[x]` to memory at `I`, then `I <- I + x + 1`. -/
def execLdMemVx (x : Nibble) (s : State) : Outcome State Fault Refusal :=
  match writeSpan s.mem s.i.toNat (s.regBlock x) with
  | some m => .next { s.advance.setI (s.i + BitVec.ofNat 16 (x.toNat + 1)) with mem := m }
  | none   => .next s.raiseData

/-- Fx65 (R135): `V[0]` to `V[x]` from memory at `I`, then `I <- I + x + 1`. -/
def execLdVxMem (x : Nibble) (s : State) : Outcome State Fault Refusal :=
  match readSpan s.mem s.i.toNat (x.toNat + 1) with
  | some bs => .next ((s.advance.setI (s.i + BitVec.ofNat 16 (x.toNat + 1))).setRegBlock bs)
  | none    => .next s.raiseData

end Sys2Proof.Machine
end

