-- ==== Sys2Proof/Machine/KeypadTimer.lean ====
section
/-!
DEFINITION. Keypad, random and timer (spec/45_keypad_timer_random.md): Ex9E, ExA1, Fx0A, Cxnn, Fx07, Fx15, Fx18.
-/

namespace Sys2Proof.Machine

open Host (Outcome)

/-- Ex9E (R150): skip if `KEY[V[x]] = 1`; `KeyIndexOutOfRange(V[x])` when `V[x] > 15`. -/
def execSkp (x : Nibble) (s : State) : Outcome State Fault Refusal :=
  match s.isPressed (s.reg x) with
  | some p => .next (s.skipIf p)
  | none   => .next (s.raise .keyIndexOutOfRange (byteWord (s.reg x)))

/-- ExA1 (R151): skip if `KEY[V[x]] = 0`; `KeyIndexOutOfRange(V[x])` when `V[x] > 15`. -/
def execSknp (x : Nibble) (s : State) : Outcome State Fault Refusal :=
  match s.isPressed (s.reg x) with
  | some p => .next (s.skipIf (!p))
  | none   => .next (s.raise .keyIndexOutOfRange (byteWord (s.reg x)))

/-- Fx0A (R152): with a key down, `V[x] <-` the least such key and the pc advances; with none, the pc goes back to `a`,
so that the same Fx0A is fetched next step, and nothing is written. -/
def execLdVxK (x : Nibble) (s : State) : Outcome State Fault Refusal :=
  match s.keyScan with
  | some k => .next (s.advance.setReg x (k.zeroExtend 8))
  | none   => .next (s.advance.setPc (s.advance.pc - 2))

/-- Cxnn with the random byte given: `V[x] <- rnd and nn` (R153). -/
def State.maskRandom (s : State) (rnd : Byte) (x : Nibble) (nn : Byte) : State := s.setReg x (rnd &&& nn)

/-- Cxnn (R153): the byte is the free value `Config.rnd` (R157), and the next Cxnn meets the next one. -/
def execRnd (x : Nibble) (nn : Byte) (s : State) : Outcome State Fault Refusal :=
  .next { s.advance.maskRandom (Config.rnd s.draws) x nn with draws := s.draws + 1 }

/-- Fx07 (R154): `V[x] <- DT`, the value before this step's tick. -/
def execLdVxDt (x : Nibble) (s : State) : Outcome State Fault Refusal :=
  .next (s.advance.setReg x s.dt)

/-- Fx15 (R155): `DT <- V[x]`; this step's tick acts on the new value. -/
def execLdDtVx (x : Nibble) (s : State) : Outcome State Fault Refusal :=
  .next { s.advance with dt := s.reg x }

/-- Fx18 (R156): nothing but the advance; there is no sound timer (spec/60_exceptions.md R176). -/
def execLdStVx (_x : Nibble) (s : State) : Outcome State Fault Refusal :=
  .next s.advance

end Sys2Proof.Machine
end

