-- ==== Sys2Proof/Machine/Step.lean ====
section
/-!
DEFINITION. One step of the engine (spec/40_step_cycle.md R90), and the placing of a word where the next step fetches it.
-/

namespace Sys2Proof.Machine

/-- `Step(rnd)` (R90): nothing while halted; else fetch (a fetch beyond memory raises `FetchOutOfRange(pc)`), decode,
execute the instruction or the default arm, and tick if the step completed. -/
def step (s : State) : Host.Outcome State Fault Refusal :=
  if s.halt then .next s
  else
    match s.fetch with
    | none   => .next (s.raise .fetchOutOfRange s.pc)
    | some w =>
      match decodeWord w with
      | .ok i    => finishStep (exec i s)
      | .error _ => finishStep (.next (execUnrecognized s))

/-- A state that can fetch: the halt latch released where it was set, the pc at the load address where it lay past the
last fetchable address. A state that already can (reset, any running state) is unchanged. -/
def State.ready (s : State) : State :=
  let t := if s.halt then { s with halt := false, fault := FaultRecord.cleared } else s
  if 4095 ≤ t.pc.toNat then t.setPc (BitVec.ofNat 16 Config.progBase) else t

/-- `s` with the word of a table row stored, high byte first, where `step` fetches next. It stands for the program load
(spec/70_reset_and_hazards.md R193; notes/assumptions/16.md). -/
def State.withFetchWord (s : State) (nbits w : Nat) : State :=
  let t := s.ready
  match writeSpan t.mem t.pc.toNat (tableBytes nbits w) with
  | some m => { t with mem := m }
  | none   => t

end Sys2Proof.Machine
end

