-- ==== Sys2Proof/Machine/Outputs.lean ====
section
/-!
DEFINITION. What a step tells the host (spec/40_step_cycle.md R96, spec/60_exceptions.md R182, R168). "These signals are
functions of the step just made and hold no state of their own": they are computed from the state before the step and the
state after it.
-/

namespace Sys2Proof.Machine

/-- The five outcomes of a step (R96). -/
inductive StepOutcome where
  /-- A recognized instruction ran to its end. -/
  | done
  /-- The word matched no pattern: the report `Unrecognized(w)` with the address it was fetched from (R168). -/
  | doneUnrecognized (w address : Word)
  /-- Fx0A ran and no key latch was 1. -/
  | doneWaiting
  /-- A `raise` happened. -/
  | fault
  /-- `HALT` was already 1. -/
  | halted
  deriving DecidableEq, Repr

/-- The four signals of R182; `unrec` carries the word and its address. -/
structure StepOutputs where
  halted  : Bool
  fault   : Bool
  unrec   : Option (Word × Word)
  waiting : Bool
  deriving DecidableEq, Repr

/-- Whether the instruction is an Fx0A that finds no key (R152, R185). -/
def State.waitsOn (s : State) (i : Instr) : Bool :=
  match i with
  | .ldVxK _ => s.keyScan.isNone
  | _        => false

/-- The outcome of the step from `s` to `t` (R96). -/
def stepOutcome (s t : State) : StepOutcome :=
  if s.halt then .halted
  else if t.halt then .fault
  else
    match s.fetch with
    | none   => .fault
    | some w =>
      match decodeWord w with
      | .ok i    => if s.waitsOn i then .doneWaiting else .done
      | .error _ => .doneUnrecognized w s.pc

/-- The signals of an outcome; `halted` is the value of `HALT` after the step (R182). -/
def outputsOf (o : StepOutcome) (haltAfter : Bool) : StepOutputs :=
  match o with
  | .done                  => ⟨haltAfter, false, none, false⟩
  | .doneUnrecognized w a  => ⟨haltAfter, false, some (w, a), false⟩
  | .doneWaiting           => ⟨haltAfter, false, none, true⟩
  | .fault                 => ⟨haltAfter, true, none, false⟩
  | .halted                => ⟨haltAfter, false, none, false⟩

/-- The outputs of the step from `s` to `t` (R182). -/
def stepOutputs (s t : State) : StepOutputs := outputsOf (stepOutcome s t) t.halt

end Sys2Proof.Machine
end

