-- ==== Sys2Proof/Machine/HostPorts.lean ====
section
/-!
DEFINITION. The host interface (spec/60_exceptions.md R178): the seven operations, each on the state between two steps,
and the one fact about the run that decides whether a load is allowed.
-/

namespace Sys2Proof.Machine

/-- The program load (spec/70_reset_and_hazards.md R193): bytes from address `a` up, those beyond 4095 dropped without a
fault. -/
def loadBytes (m : Memory) (a : Nat) (bs : List Byte) : Memory :=
  match bs with
  | []     => m
  | b :: r => loadBytes (if a < Config.memSize then m.poke a b else m) (a + 1) r

/-- `Load(bytes)` (R193): "writes nothing but `MEM[0x200..]`". -/
def State.load (s : State) (bytes : List Byte) : State := { s with mem := loadBytes s.mem Config.progBase bytes }

/-- `Reset` with the font the host supplies (R178, R190): every piece of state at its reset value, whatever it was. The
index of the free random bytes is no state of the hardware and is kept, so that the bytes after a reset are fresh ones. -/
def State.resetWith (s : State) (font : Vector Byte 80) : State :=
  { State.reset with mem := loadBytes [] 0 font.toList, draws := s.draws }

/-- `KeySet(k, b)` (R179): `KEY[k] <- b`, nothing else; the port's index has 4 bits (D29). -/
def State.keySet (s : State) (k : Nibble) (pressed : Bool) : State :=
  { s with key := s.key.set k.toNat pressed k.isLt }

/-- `PresentAck` (R181): `DIRTY <- 0`. -/
def State.presentAck (s : State) : State := { s with dirty := false }

/-- The host operations (R178). The random byte of `Step(rnd)` is the free value `Config.rnd` (R157). -/
inductive HostOp where
  | reset (font : Vector Byte 80)
  | load (bytes : List Byte)
  | keySet (k : Nibble) (pressed : Bool)
  | step
  | readFrame
  | presentAck
  | readFault
  deriving DecidableEq, Repr

/-- What the host gets (R178, column "what the host gets"). -/
inductive HostReply where
  | nothing
  | outputs (o : StepOutputs)
  | frame (fb : FrameBuffer) (dirty : Bool)
  | faultRecord (halt : Bool) (f : FaultRecord)
  deriving DecidableEq, Repr

/-- The block as the host sees it: its state, and whether a step was made since the last reset (R193). -/
structure Block where
  state   : State
  started : Bool
  deriving DecidableEq, Repr

/-- A block right after reset. -/
def Block.fresh : Block := ⟨State.reset, false⟩

/-- One host operation (R178). A load after the first step has no meaning in the spec and stops the model (R193, V16). -/
def hostOp (op : HostOp) (b : Block) : Host.Outcome (Block × HostReply) Fault Refusal :=
  match op with
  | .reset font     => .next (⟨b.state.resetWith font, false⟩, .nothing)
  | .load bytes     => if b.started then .fault .loadDuringRun else .next (⟨b.state.load bytes, false⟩, .nothing)
  | .keySet k p     => .next (⟨b.state.keySet k p, b.started⟩, .nothing)
  | .step           =>
    match step b.state with
    | .next t    => .next (⟨t, true⟩, .outputs (stepOutputs b.state t))
    | .fault r   => .fault r
    | .refused r => .refused r
  | .readFrame      => .next (b, .frame b.state.fb b.state.dirty)
  | .presentAck     => .next (⟨b.state.presentAck, b.started⟩, .nothing)
  | .readFault      => .next (b, .faultRecord b.state.halt b.state.fault)

end Sys2Proof.Machine
end

