-- ==== Sys2Proof/Safety.lean ====
section
/-!
DEFINITION. The terms in which claims are stated: the invariant of spec/10_state.md R41, the good and the bad end of a run
(spec/60_exceptions.md R186, R167), the wait (R185), and what "unchanged" means for each part of the state.
-/

namespace Sys2Proof.Machine

/-- R41 with the legal values of R38 and the canonical form of memory. (a) `0 <= SP <= 16` holds by the type of `sp`. -/
abbrev State.Inv (s : State) : Prop :=
  s.pc.toNat ≤ 0x10FE ∧
  (∀ k : Fin 16, k.val < s.sp.val → (s.stack[k.val]).toNat ≤ 4096) ∧
  (s.fault.cause = .none ↔ s.halt = false) ∧
  s.fault.pc.toNat ≤ 0x10FE ∧
  s.mem.wf = true

/-- A run is safe as long as no fault has halted the block (R167: "a program whose run reaches `HALT = 1` has gone
wrong"). -/
abbrev State.Safe (s : State) : Prop := s.halt = false

/-- A good end of a run (R186): the engine sits in a self-jump, the word `1nnn` with `nnn` its own address. -/
abbrev State.WellEnded (s : State) : Prop :=
  s.halt = false ∧ ∃ w, s.fetch = some w ∧ fieldOp w = 1 ∧ immWord (fieldNNN w) = s.pc

/-- The wait state (R185): the next word is an Fx0A and no key is down. -/
abbrev State.Waiting (s : State) : Prop :=
  s.halt = false ∧ s.keyScan = none ∧ ∃ w x, s.fetch = some w ∧ decodeWord w = .ok (.ldVxK x)

/-- The next word is an Fx0A and every key latch is 0: the `when` of the outcome done-waiting
(spec/40_step_cycle.md R96). -/
def State.FindsNoKey (s : State) : Prop :=
  (∃ w x, s.fetch = some w ∧ decodeWord w = .ok (.ldVxK x)) ∧ ∀ k : Fin 16, s.key[k.val] = false

/-- The state after `n` steps with no host operation between them; none if the model stops on the way. -/
def stepsFrom (n : Nat) (s : State) : Option State :=
  match n with
  | 0     => some s
  | k + 1 =>
    match step s with
    | .next t => stepsFrom k t
    | _       => none

/-! ### What an instruction may touch -/

/-- How many bytes of memory an instruction reads or writes as data, from address `I` (spec/20_memory.md R57). -/
def dataBytes (i : Instr) : Nat :=
  match i with
  | .drw _ _ n => n.toNat
  | .ldBVx _   => 3
  | .ldMemVx x => x.toNat + 1
  | .ldVxMem x => x.toNat + 1
  | _          => 0

/-- The registers an instruction may write: its destinations (spec/10_state.md R21) and `VF` where it writes the flag
(R22). -/
def mayWrite (i : Instr) (r : Nibble) : Prop :=
  match i with
  | .ldImm x _  => r = x
  | .addImm x _ => r = x
  | .ldReg x _  => r = x
  | .orReg x _  => r = x
  | .andReg x _ => r = x
  | .xorReg x _ => r = x
  | .addReg x _ => r = x ∨ r = 15
  | .subReg x _ => r = x ∨ r = 15
  | .shr x _    => r = x ∨ r = 15
  | .subn x _   => r = x ∨ r = 15
  | .shl x _    => r = x ∨ r = 15
  | .rnd x _    => r = x
  | .drw _ _ _  => r = 15
  | .ldVxDt x   => r = x
  | .ldVxK x    => r = x
  | .ldVxMem x  => r.toNat ≤ x.toNat
  | _           => False

/-- The sprite bit of byte `row`, column offset `col`, of a sprite of `n` bytes at `I` is 1 (spec/44_display.md R142,
R143: `b[7 - col]`). -/
def SpriteBitSet (s : State) (n row col : Nat) : Prop :=
  row < n ∧ col < 8 ∧ (s.mem.peek (s.i.toNat + row)).getLsbD (7 - col) = true

/-! ### What a step keeps -/

def KeepsRegs (s t : State) : Prop := ∀ r : Nibble, t.reg r = s.reg r

/-- Every register but those of a set is as before. -/
def KeepsRegsBut (p : Nibble → Prop) (s t : State) : Prop := ∀ r : Nibble, ¬ p r → t.reg r = s.reg r

def KeepsIndex (s t : State) : Prop := t.i = s.i

def KeepsStack (s t : State) : Prop := t.stack = s.stack ∧ t.sp = s.sp

def KeepsTimer (s t : State) : Prop := t.dt = s.dt

def KeepsDisplay (s t : State) : Prop := t.fb = s.fb ∧ t.dirty = s.dirty

/-- The key latches, and the model's own index of the free random bytes. -/
def KeepsInputs (s t : State) : Prop := t.key = s.key ∧ t.draws = s.draws

def KeepsFault (s t : State) : Prop := t.halt = s.halt ∧ t.fault = s.fault

/-- Every byte of memory reads as before. -/
def KeepsMemory (s t : State) : Prop := ∀ a : Nat, t.mem.peek a = s.mem.peek a

/-- Every byte of memory outside `n` bytes from address `a` reads as before. -/
def KeepsMemoryOutside (a n : Nat) (s t : State) : Prop :=
  ∀ b : Nat, ¬ (a ≤ b ∧ b < a + n) → t.mem.peek b = s.mem.peek b

/-- Everything but the general registers and the pc. -/
def KeepsAllButRegs (s t : State) : Prop :=
  KeepsIndex s t ∧ KeepsStack s t ∧ KeepsTimer s t ∧ KeepsDisplay s t ∧ KeepsInputs s t ∧ KeepsFault s t ∧ KeepsMemory s t

/-- Everything but the pc. -/
def KeepsAllButPc (s t : State) : Prop := KeepsRegs s t ∧ KeepsAllButRegs s t

/-- Everything but the halt latch and the fault record, the pc included: what a fault leaves as it was (R162). -/
def KeepsAllButFault (s t : State) : Prop :=
  t.pc = s.pc ∧ KeepsRegs s t ∧ KeepsIndex s t ∧ KeepsStack s t ∧ KeepsTimer s t ∧ KeepsDisplay s t ∧ KeepsInputs s t ∧
    KeepsMemory s t

end Sys2Proof.Machine
end

