-- ==== Sys2Proof/Certificates/Slice0/Obligations.lean ====
section
/-!
DEFINITION. The statements for the provers. Each docstring names the rules of spec/ it formalises. A conclusion of the form
"there is `t` with `exec i s = .next t`" says that the instruction completes. Where a clause rests on a decision of
spec/92_eei_decisions.md (D<n>) and not on the source, the docstring says so.
-/

open Sys2Proof Sys2Proof.Machine

/-! ### Encoding -/

/-- Decoding the bytes of an encoded instruction gives it back and leaves the rest of the bytes (30_encoding.md R70 to
R74; 20_memory.md R51). -/
def Obligations.EncodedInstructionDecodesBack : Prop :=
  ∀ (i : Instr) (rest : List Byte), decodeBytes (encodeBytes i ++ rest) = .ok (i, rest)

/-- Encoding what a word decodes to gives the word back: no bit of a recognized word is lost (R71, R72). -/
def Obligations.DecodedWordEncodesBack : Prop :=
  ∀ (w : Word) (i : Instr), decodeWord w = .ok i → encode i = w

/-- The decoder, written from the nibbles, accepts exactly the words the mask and match table accepts (R73, R74; exact
matching is decision D19). -/
def Obligations.DecoderAcceptsTableWords : Prop :=
  ∀ w : Word, (∃ i, decodeWord w = .ok i) ↔ recognized w = true

/-- The patterns are pairwise disjoint (R73, an inference the spec marks as derived). -/
def Obligations.NoWordMatchesTwoRows : Prop :=
  ∀ (w : Word) (r q : OpcodeRow), r ∈ opcodeTable → q ∈ opcodeTable → r.matches w = true → q.matches w = true → r = q

/-- The unrecognized space, part by part as R75 lists it, and the name the decoder rejects each part by. -/
def Obligations.UnrecognizedSpaceByName : Prop :=
  ∀ w : Word,
    (decodeWord w = .error .unrecognized0nnn ↔ fieldOp w = 0x0 ∧ w ≠ 0x00E0 ∧ w ≠ 0x00EE) ∧
    (decodeWord w = .error .unrecognized5xyn ↔ fieldOp w = 0x5 ∧ fieldN w ≠ 0) ∧
    (decodeWord w = .error .unrecognized8xyn ↔
      fieldOp w = 0x8 ∧ fieldN w ∈ ([0x8, 0x9, 0xA, 0xB, 0xC, 0xD, 0xF] : List Nibble)) ∧
    (decodeWord w = .error .unrecognized9xyn ↔ fieldOp w = 0x9 ∧ fieldN w ≠ 0) ∧
    (decodeWord w = .error .unrecognizedExnn ↔ fieldOp w = 0xE ∧ fieldNN w ∉ ([0x9E, 0xA1] : List Byte)) ∧
    (decodeWord w = .error .unrecognizedFxnn ↔
      fieldOp w = 0xF ∧ fieldNN w ∉ ([0x07, 0x0A, 0x15, 0x18, 0x1E, 0x29, 0x33, 0x55, 0x65] : List Byte)) ∧
    decodeWord w ≠ .error .tooShort

/-- Words written out from the encodings of R74, one per format, and what they decode to (95_test_vectors.md). -/
def Obligations.SampleWordsDecode : Prop :=
  decodeWord 0x00E0 = .ok .cls ∧ decodeWord 0x1A2A = .ok (.jp 0xA2A) ∧ decodeWord 0x332A = .ok (.seImm 0x3 0x2A) ∧
  decodeWord 0x8124 = .ok (.addReg 0x1 0x2) ∧ decodeWord 0xD125 = .ok (.drw 0x1 0x2 0x5) ∧
  decodeWord 0xE2A1 = .ok (.sknp 0x2) ∧ decodeWord 0xF265 = .ok (.ldVxMem 0x2) ∧
  decodeWord 0x5AB1 = .error .unrecognized5xyn ∧ decodeWord 0x0000 = .error .unrecognized0nnn

/-- The five readings of a word in terms of its two bytes (R71) and the big-endian word itself (R51). -/
def Obligations.FieldsOfTwoBytes : Prop :=
  ∀ hi lo : Byte,
    (wordOfBytes hi lo).toNat = hi.toNat * 256 + lo.toNat ∧
    (fieldOp (wordOfBytes hi lo)).toNat = hi.toNat / 16 ∧ (fieldX (wordOfBytes hi lo)).toNat = hi.toNat % 16 ∧
    (fieldY (wordOfBytes hi lo)).toNat = lo.toNat / 16 ∧ (fieldN (wordOfBytes hi lo)).toNat = lo.toNat % 16 ∧
    fieldNN (wordOfBytes hi lo) = lo ∧ (fieldNNN (wordOfBytes hi lo)).toNat = hi.toNat % 16 * 256 + lo.toNat

/-! ### Reset, invariants, memory -/

/-- The state after reset, field by field (10_state.md R40). The values of I, SP, STACK, DT, FB, DIRTY, KEY are decision
D14, those of HALT and FAULT D3, the font bytes D9. -/
def Obligations.ResetStateIsTheTable : Prop :=
  (∀ r : Nibble, State.reset.reg r = 0) ∧ State.reset.pc.toNat = 0x200 ∧ State.reset.i = 0 ∧
  State.reset.sp.val = 0 ∧ (∀ k : Fin 16, State.reset.stack[k.val] = 0) ∧ State.reset.dt = 0 ∧
  (∀ (r : Fin 32) (c : Fin 64), State.reset.fb.pixel r c = false) ∧ State.reset.dirty = false ∧
  (∀ k : Fin 16, State.reset.key[k.val] = false) ∧ State.reset.halt = false ∧
  State.reset.fault.cause.code = 0 ∧ State.reset.fault.pc = 0 ∧ State.reset.fault.info = 0 ∧
  (∀ a : Nat, 80 ≤ a → State.reset.mem.peek a = 0) ∧
  (List.range 16).map (fun d => (List.range 5).map fun row => State.reset.mem.peek (5 * d + row)) = ([
    [0xF0, 0x90, 0x90, 0x90, 0xF0], [0x20, 0x60, 0x20, 0x20, 0x70], [0xF0, 0x10, 0xF0, 0x80, 0xF0],
    [0xF0, 0x10, 0xF0, 0x10, 0xF0], [0x90, 0x90, 0xF0, 0x10, 0x10], [0xF0, 0x80, 0xF0, 0x10, 0xF0],
    [0xF0, 0x80, 0xF0, 0x90, 0xF0], [0xF0, 0x10, 0x20, 0x40, 0x40], [0xF0, 0x90, 0xF0, 0x90, 0xF0],
    [0xF0, 0x90, 0xF0, 0x10, 0xF0], [0xF0, 0x90, 0xF0, 0x90, 0x90], [0xE0, 0x90, 0xE0, 0x90, 0xE0],
    [0xF0, 0x80, 0x80, 0x80, 0xF0], [0xE0, 0x90, 0x90, 0x90, 0xE0], [0xF0, 0x80, 0xF0, 0x80, 0xF0],
    [0xF0, 0x80, 0xF0, 0x80, 0x80]] : List (List Byte))

/-- The invariant of R41 holds after reset, from any state and with any font (70_reset_and_hazards.md R190, D25). -/
def Obligations.ResetMeetsInvariant : Prop :=
  State.reset.Inv ∧ ∀ (s : State) (font : Vector Byte 80), (s.resetWith font).Inv

/-- The invariant of R41 is kept by every step, from every state that meets it. -/
def Obligations.StepKeepsInvariant : Prop :=
  ∀ s t : State, s.Inv → step s = .next t → t.Inv

/-- The invariant of R41 is kept by every host operation (60_exceptions.md R178). -/
def Obligations.HostOperationsKeepInvariant : Prop :=
  ∀ (op : HostOp) (b b' : Block) (r : HostReply), b.state.Inv → hostOp op b = .next (b', r) → b'.state.Inv

/-- The model's own: memories in canonical form with the same bytes are the same data. -/
def Obligations.CanonicalMemoriesAreEqual : Prop :=
  ∀ m m' : Memory, m.wf = true → m'.wf = true → (∀ a, m.peek a = m'.peek a) → m = m'

/-! ### The step -/

/-- When the two bytes at the pc decode to an instruction, the step is the instruction's meaning and then the end of the
step: no tick if it raised, else `DT` down by 1 unless it is 0 (40_step_cycle.md R90, R93, R95; the pc moves inside the
meaning). Every `Instr` is well formed by its type. -/
def Obligations.StepRunsDecodedInstruction : Prop :=
  ∀ (s t : State) (i : Instr) (rest : List Byte), s.halt = false → s.pc.toNat + 1 < 4096 →
    decodeBytes (s.mem.peek s.pc.toNat :: s.mem.peek (s.pc.toNat + 1) :: rest) = .ok (i, rest) →
    exec i s = .next t →
    step s = .next (if t.halt = true then t else { t with dt := if t.dt = 0 then 0 else t.dt - 1 })

/-- A word that matches no row of the table runs the default arm: the pc advances, the timer ticks, a report with the
word and its address comes out, and nothing else changes (R94). -/
def Obligations.UnrecognizedWordIsReportedAndIgnored : Prop :=
  ∀ (s : State) (w : Word), s.halt = false → s.fetch = some w → recognized w = false →
    ∃ t, step s = .next t ∧ t.pc = s.pc + 2 ∧ t.dt.toNat = s.dt.toNat - 1 ∧
      stepOutcome s t = .doneUnrecognized w s.pc ∧ (stepOutputs s t).unrec = some (w, s.pc) ∧
      KeepsRegs s t ∧ KeepsIndex s t ∧ KeepsStack s t ∧ KeepsDisplay s t ∧ KeepsInputs s t ∧ KeepsFault s t ∧
      KeepsMemory s t

/-- The fetch: big-endian at any `pc` up to 4094, odd or even, and out of range from 4095 up (20_memory.md R53, R51). -/
def Obligations.FetchReadsTwoBytes : Prop :=
  ∀ s : State,
    (s.pc.toNat ≤ 4094 → ∃ w, s.fetch = some w ∧
      w.toNat = (s.mem.peek s.pc.toNat).toNat * 256 + (s.mem.peek (s.pc.toNat + 1)).toNat) ∧
    (4095 ≤ s.pc.toNat → s.fetch = none)

/-- A fetch past memory faults: the record names the pc twice, and nothing else changes (R161; the form of the fault entry
is decision D3, the cause's code D4). -/
def Obligations.FetchPastMemoryFaults : Prop :=
  ∀ s : State, s.halt = false → 4095 ≤ s.pc.toNat →
    ∃ t, step s = .next t ∧ t.halt = true ∧ t.fault.cause.code = 1 ∧ t.fault.pc = s.pc ∧ t.fault.info = s.pc ∧
      KeepsAllButFault s t

/-- A halted block stays as it is for any number of steps (R90, R166: decision D3). -/
def Obligations.HaltIsSticky : Prop :=
  ∀ (s : State) (n : Nat), s.halt = true → stepsFrom n s = some s

/-- Every step answers a next state, in exactly one of the five outcomes of R96 (an inference the spec marks as derived):
for each outcome exactly when it occurs and the state change of its row; and the four signals of 60_exceptions.md R182
(their form is decision D1), each exactly when it is one. -/
def Obligations.FiveOutcomesOfAStep : Prop :=
  ∀ s : State, ∃ t, step s = .next t ∧
    (stepOutcome s t = .halted ↔ s.halt = true) ∧
    (stepOutcome s t = .fault ↔ s.halt = false ∧ t.halt = true) ∧
    (∀ w a, stepOutcome s t = .doneUnrecognized w a ↔
      s.halt = false ∧ s.fetch = some w ∧ recognized w = false ∧ a = s.pc) ∧
    (stepOutcome s t = .doneWaiting ↔ s.halt = false ∧ s.FindsNoKey) ∧
    (stepOutcome s t = .done ↔
      s.halt = false ∧ t.halt = false ∧ (∃ w i, s.fetch = some w ∧ decodeWord w = .ok i) ∧ ¬ s.FindsNoKey) ∧
    (stepOutcome s t = .halted → t = s) ∧
    (stepOutcome s t = .fault → KeepsAllButFault s t) ∧
    (∀ w a, stepOutcome s t = .doneUnrecognized w a →
      t = { s with pc := s.pc + 2, dt := t.dt } ∧ t.dt.toNat = s.dt.toNat - 1) ∧
    (stepOutcome s t = .doneWaiting → t = { s with dt := t.dt } ∧ t.dt.toNat = s.dt.toNat - 1) ∧
    (stepOutcome s t = .done → ∃ w i u, s.fetch = some w ∧ decodeWord w = .ok i ∧ exec i s = .next u ∧
      t = { u with dt := t.dt } ∧ t.dt.toNat = u.dt.toNat - 1) ∧
    (stepOutputs s t).halted = t.halt ∧
    ((stepOutputs s t).fault = true ↔ s.halt = false ∧ t.halt = true) ∧
    (∀ w a, (stepOutputs s t).unrec = some (w, a) ↔
      s.halt = false ∧ s.fetch = some w ∧ recognized w = false ∧ a = s.pc) ∧
    ((stepOutputs s t).waiting = true ↔ s.halt = false ∧ s.FindsNoKey)

/-- Faults are precise, and the record says what happened (60_exceptions.md R161, R162; decisions D3, D4, D5, D6). -/
def Obligations.FaultsArePreciseAndNamed : Prop :=
  ∀ s t : State, s.halt = false → step s = .next t → t.halt = true →
    KeepsAllButFault s t ∧ t.fault.pc = s.pc ∧
    ((t.fault.cause.code = 1 ∧ 4095 ≤ s.pc.toNat ∧ t.fault.info = s.pc) ∨
     (t.fault.cause.code = 2 ∧ s.sp.val = 16 ∧ t.fault.info = 16) ∨
     (t.fault.cause.code = 3 ∧ s.sp.val = 0 ∧ t.fault.info = 0) ∨
     (t.fault.cause.code = 4 ∧ t.fault.info.toNat = max s.i.toNat 4096) ∨
     (t.fault.cause.code = 5 ∧ ∃ x : Nibble, 15 < (s.reg x).toNat ∧ t.fault.info.toNat = (s.reg x).toNat))

/-- The tick: a completed step takes 1 from the timer unless it is 0, from `V[x]` where the step ran Fx15, else from the
timer as it was (R95, R28; that waiting and unrecognized steps tick is decision D24). -/
def Obligations.CompletedStepTicksTheTimer : Prop :=
  ∀ s t : State, s.halt = false → step s = .next t → t.halt = false →
    (∃ w x, s.fetch = some w ∧ decodeWord w = .ok (.ldDtVx x) ∧ t.dt.toNat = (s.reg x).toNat - 1) ∨
    ((∀ w x, s.fetch = some w → decodeWord w ≠ .ok (.ldDtVx x)) ∧ t.dt.toNat = s.dt.toNat - 1)

/-! ### Rules over all instructions -/

/-- Each part of the state is written only by the instructions R20 names for it (10_state.md R20, R34, R35). -/
def Obligations.EachPartHasItsWriters : Prop :=
  ∀ (i : Instr) (s t : State), exec i s = .next t →
    t.key = s.key ∧
    (t.mem ≠ s.mem → ∃ x, i = .ldBVx x ∨ i = .ldMemVx x) ∧
    (t.i ≠ s.i → (∃ nnn, i = .ldI nnn) ∨ ∃ x, i = .addIVx x ∨ i = .ldFVx x ∨ i = .ldMemVx x ∨ i = .ldVxMem x) ∧
    (t.stack ≠ s.stack → ∃ nnn, i = .call nnn) ∧
    (t.sp ≠ s.sp → i = .ret ∨ ∃ nnn, i = .call nnn) ∧
    (t.dt ≠ s.dt → ∃ x, i = .ldDtVx x) ∧
    (t.fb ≠ s.fb ∨ t.dirty ≠ s.dirty → i = .cls ∨ ∃ x y n, i = .drw x y n)

/-- No instruction writes a register but its destinations, and `VF` where it writes the flag (10_state.md R21, R22). -/
def Obligations.OnlyDestinationRegistersChange : Prop :=
  ∀ (i : Instr) (s t : State) (r : Nibble), exec i s = .next t → ¬ mayWrite i r → t.reg r = s.reg r

/-- The data accesses of R57 and their range rule (20_memory.md R63, decision D5): the instruction raises
`DataOutOfRange` exactly when its span is not empty and reaches 4096, and then changes nothing else. -/
def Obligations.SpansAreAllOrNothing : Prop :=
  ∀ (i : Instr) (s t : State), s.halt = false → exec i s = .next t →
    (t.halt = true ∧ t.fault.cause = .dataOutOfRange ↔ 1 ≤ dataBytes i ∧ 4096 ≤ s.i.toNat + dataBytes i - 1) ∧
    (t.halt = true → KeepsAllButFault s t ∧ t.fault.pc = s.pc) ∧
    (t.halt = true → t.fault.cause = .dataOutOfRange → t.fault.info.toNat = max s.i.toNat 4096)

/-- The framebuffer and the dirty flag reach the rest of the state only through Dxyn (10_state.md R33, R34): for every
other instruction, other pixels and another flag before make no difference outside the display. -/
def Obligations.DisplayIsReadOnlyByDraw : Prop :=
  ∀ (i : Instr) (s t : State) (f : FrameBuffer) (d : Bool), (∀ x y n, i ≠ .drw x y n) → exec i s = .next t →
    ∃ u, exec i { s with fb := f, dirty := d } = .next u ∧ u = { t with fb := u.fb, dirty := u.dirty }

/-- The dirty flag influences nothing, not even Dxyn: "No instruction reads it" (10_state.md R34). -/
def Obligations.DirtyFlagIsNeverRead : Prop :=
  ∀ (s t : State) (d : Bool), step s = .next t →
    ∃ u, step { s with dirty := d } = .next u ∧ u = { t with dirty := u.dirty } ∧ (u.dirty = t.dirty ∨ u.dirty = d)

/-- The key latches are read only by Ex9E, ExA1 and Fx0A (10_state.md R35). -/
def Obligations.KeysAreReadOnlyByThree : Prop :=
  ∀ (i : Instr) (s t : State) (k : Vector Bool 16), (∀ x, i ≠ .skp x ∧ i ≠ .sknp x ∧ i ≠ .ldVxK x) →
    exec i s = .next t → exec i { s with key := k } = .next { t with key := k }

/-! ### Control transfer -/

/-- 1nnn: its encoding; `pc` is exactly `nnn`; nothing else changes (41_flow.md R102). -/
def Obligations.JumpSetsPc : Prop :=
  ∀ (s : State) (nnn : Imm12), decodeWord (0x1#4 ++ nnn) = .ok (.jp nnn) ∧
    ∃ t, exec (.jp nnn) s = .next t ∧ t.pc.toNat = nnn.toNat ∧ KeepsAllButPc s t

/-- Bnnn: its encoding; `pc` is `nnn + V[0]`, not reduced modulo 4096; nothing else changes (R108). -/
def Obligations.JumpWithOffsetAddsV0 : Prop :=
  ∀ (s : State) (nnn : Imm12), decodeWord (0xB#4 ++ nnn) = .ok (.jpV0 nnn) ∧
    ∃ t, exec (.jpV0 nnn) s = .next t ∧ t.pc.toNat = nnn.toNat + (s.reg 0).toNat ∧ KeepsAllButPc s t

/-- 2nnn (R103): with a free slot it pushes the advanced pc and jumps; with a full stack it raises `StackOverflow(16)`,
which changes nothing but HALT and FAULT (the form of the fault entry is decision D3). -/
def Obligations.CallPushesReturnAddress : Prop :=
  ∀ (s : State) (nnn : Imm12),
    (s.sp.val < 16 → ∃ t, exec (.call nnn) s = .next t ∧ t.pc.toNat = nnn.toNat ∧ t.sp.val = s.sp.val + 1 ∧
      (∀ k : Fin 16, t.stack[k.val] = if k.val = s.sp.val then s.pc + 2 else s.stack[k.val]) ∧
      KeepsRegs s t ∧ KeepsIndex s t ∧ KeepsTimer s t ∧ KeepsDisplay s t ∧ KeepsInputs s t ∧ KeepsFault s t ∧
      KeepsMemory s t) ∧
    (s.sp.val = 16 → ∃ t, exec (.call nnn) s = .next t ∧ t.halt = true ∧
      t.fault = ⟨.stackOverflow, s.pc, 16⟩ ∧ KeepsAllButFault s t)

/-- 00EE (R101): with an entry it decrements SP and takes the entry SP then points at, which stays in the stack; with
none it raises `StackUnderflow(0)`, which changes nothing but HALT and FAULT (form of the entry: D3). -/
def Obligations.ReturnPopsIntoPc : Prop :=
  ∀ s : State,
    (∀ k : Fin 16, s.sp.val = k.val + 1 → ∃ t, exec .ret s = .next t ∧ t.pc = s.stack[k.val] ∧ t.sp.val = k.val ∧
      t.stack = s.stack ∧ KeepsRegs s t ∧ KeepsIndex s t ∧ KeepsTimer s t ∧ KeepsDisplay s t ∧ KeepsInputs s t ∧
      KeepsFault s t ∧ KeepsMemory s t) ∧
    (s.sp.val = 0 → ∃ t, exec .ret s = .next t ∧ t.halt = true ∧ t.fault = ⟨.stackUnderflow, s.pc, 0⟩ ∧
      KeepsAllButFault s t)

/-- Call and return are a stack round trip: a return on the stack a call left comes back to the address after the call,
with SP as before it and every older entry kept (41_flow.md, section 2). -/
def Obligations.CallThenReturnComesBack : Prop :=
  ∀ (s t u : State) (nnn : Imm12), s.sp.val < 16 → exec (.call nnn) s = .next t → u.stack = t.stack → u.sp = t.sp →
    ∃ v, exec .ret u = .next v ∧ v.pc = s.pc + 2 ∧ v.sp = s.sp ∧
      ∀ k : Fin 16, k.val < s.sp.val → v.stack[k.val] = s.stack[k.val]

/-- 3xnn and 4xnn: their encodings; `a + 4` if the register equals (differs from) the immediate, else `a + 2` (R104, R105). -/
def Obligations.SkipOnImmediate : Prop :=
  ∀ (s : State) (x : Nibble) (nn : Byte),
    decodeWord (0x3#4 ++ x ++ nn) = .ok (.seImm x nn) ∧ decodeWord (0x4#4 ++ x ++ nn) = .ok (.sneImm x nn) ∧
    (∃ t, exec (.seImm x nn) s = .next t ∧ t.pc = (if s.reg x = nn then s.pc + 4 else s.pc + 2) ∧ KeepsAllButPc s t) ∧
    (∃ t, exec (.sneImm x nn) s = .next t ∧ t.pc = (if s.reg x = nn then s.pc + 2 else s.pc + 4) ∧ KeepsAllButPc s t)

/-- 5xy0 and 9xy0: their encodings, the last digit 0 and no other; `a + 4` if the registers are equal (differ), else
`a + 2`; with `x = y` always (never) (R106, R107). -/
def Obligations.SkipOnRegisters : Prop :=
  ∀ (s : State) (x y : Nibble),
    (∀ n : Nibble, decodeWord (0x5#4 ++ x ++ y ++ n) = if n = 0 then .ok (.seReg x y) else .error .unrecognized5xyn) ∧
    (∀ n : Nibble, decodeWord (0x9#4 ++ x ++ y ++ n) = if n = 0 then .ok (.sneReg x y) else .error .unrecognized9xyn) ∧
    (∃ t, exec (.seReg x y) s = .next t ∧ t.pc = (if s.reg x = s.reg y then s.pc + 4 else s.pc + 2) ∧
      (x = y → t.pc = s.pc + 4) ∧ KeepsAllButPc s t) ∧
    (∃ t, exec (.sneReg x y) s = .next t ∧ t.pc = (if s.reg x = s.reg y then s.pc + 2 else s.pc + 4) ∧
      (x = y → t.pc = s.pc + 2) ∧ KeepsAllButPc s t)

/-! ### Register load and arithmetic -/

/-- 6xnn and 7xnn: their encodings; `V[x]` is `nn`, or the sum modulo 256; no flag, no other register, nothing else (42_alu.md R111,
R112). With `x = 15` the value goes into `VF` as data. -/
def Obligations.ImmediateLoadAndAdd : Prop :=
  ∀ (s : State) (x : Nibble) (nn : Byte),
    decodeWord (0x6#4 ++ x ++ nn) = .ok (.ldImm x nn) ∧ decodeWord (0x7#4 ++ x ++ nn) = .ok (.addImm x nn) ∧
    (∃ t, exec (.ldImm x nn) s = .next t ∧ t.pc = s.pc + 2 ∧ t.reg x = nn ∧ KeepsRegsBut (· = x) s t ∧
      KeepsAllButRegs s t) ∧
    (∃ t, exec (.addImm x nn) s = .next t ∧ t.pc = s.pc + 2 ∧
      (t.reg x).toNat = ((s.reg x).toNat + nn.toNat) % 256 ∧ KeepsRegsBut (· = x) s t ∧ KeepsAllButRegs s t)

/-- 8xy0 to 8xy3: their encodings; copy, OR, AND, exclusive OR, bit by bit; no flag (R113 to R116). -/
def Obligations.CopyAndLogic : Prop :=
  ∀ (s : State) (x y : Nibble),
    decodeWord (0x8#4 ++ x ++ y ++ 0x0#4) = .ok (.ldReg x y) ∧ decodeWord (0x8#4 ++ x ++ y ++ 0x1#4) = .ok (.orReg x y) ∧
    decodeWord (0x8#4 ++ x ++ y ++ 0x2#4) = .ok (.andReg x y) ∧ decodeWord (0x8#4 ++ x ++ y ++ 0x3#4) = .ok (.xorReg x y) ∧
    (∃ t, exec (.ldReg x y) s = .next t ∧ t.pc = s.pc + 2 ∧ t.reg x = s.reg y ∧ KeepsRegsBut (· = x) s t ∧
      KeepsAllButRegs s t) ∧
    (∃ t, exec (.orReg x y) s = .next t ∧ t.pc = s.pc + 2 ∧
      (∀ k, k < 8 → (t.reg x).getLsbD k = ((s.reg x).getLsbD k || (s.reg y).getLsbD k)) ∧
      KeepsRegsBut (· = x) s t ∧ KeepsAllButRegs s t) ∧
    (∃ t, exec (.andReg x y) s = .next t ∧ t.pc = s.pc + 2 ∧
      (∀ k, k < 8 → (t.reg x).getLsbD k = ((s.reg x).getLsbD k && (s.reg y).getLsbD k)) ∧
      KeepsRegsBut (· = x) s t ∧ KeepsAllButRegs s t) ∧
    (∃ t, exec (.xorReg x y) s = .next t ∧ t.pc = s.pc + 2 ∧
      (∀ k, k < 8 → (t.reg x).getLsbD k = ((s.reg x).getLsbD k ^^ (s.reg y).getLsbD k)) ∧
      KeepsRegsBut (· = x) s t ∧ KeepsAllButRegs s t)

/-- 8xy4: the low 8 bits of the sum and the carry (R117). That with `x = 15` the carry is what `VF` holds is decision
D7. -/
def Obligations.AddWritesSumAndCarry : Prop :=
  ∀ (s : State) (x y : Nibble),
    ∃ t, exec (.addReg x y) s = .next t ∧ t.pc = s.pc + 2 ∧
      (x ≠ 15 → (t.reg x).toNat = ((s.reg x).toNat + (s.reg y).toNat) % 256) ∧
      (t.reg 15).toNat = (if 255 < (s.reg x).toNat + (s.reg y).toNat then 1 else 0) ∧
      KeepsRegsBut (fun r => r = x ∨ r = 15) s t ∧ KeepsAllButRegs s t

/-- 8xy5 and 8xy7: the difference modulo 256 and the flag "no borrow"; (R118, R120). That with `x = 15` the
flag is what `VF` holds is decision D7. -/
def Obligations.SubtractionsWriteDifferenceAndNoBorrow : Prop :=
  ∀ (s : State) (x y : Nibble),
    (∃ t, exec (.subReg x y) s = .next t ∧ t.pc = s.pc + 2 ∧
      (x ≠ 15 → (t.reg x).toNat =
        if (s.reg x).toNat < (s.reg y).toNat then (s.reg x).toNat + 256 - (s.reg y).toNat
        else (s.reg x).toNat - (s.reg y).toNat) ∧
      (t.reg 15).toNat = (if (s.reg y).toNat ≤ (s.reg x).toNat then 1 else 0) ∧
      KeepsRegsBut (fun r => r = x ∨ r = 15) s t ∧ KeepsAllButRegs s t) ∧
    (∃ t, exec (.subn x y) s = .next t ∧ t.pc = s.pc + 2 ∧
      (x ≠ 15 → (t.reg x).toNat =
        if (s.reg y).toNat < (s.reg x).toNat then (s.reg y).toNat + 256 - (s.reg x).toNat
        else (s.reg y).toNat - (s.reg x).toNat) ∧
      (t.reg 15).toNat = (if (s.reg x).toNat ≤ (s.reg y).toNat then 1 else 0) ∧
      KeepsRegsBut (fun r => r = x ∨ r = 15) s t ∧ KeepsAllButRegs s t)

/-- 8xy6 and 8xyE: `V[x]` shifted by one, the dropped bit in `VF`, `V[y]` not read: the result is the same for every `y`
(R119, R121). That with `x = 15` the flag is what `VF` holds is decision D7. -/
def Obligations.ShiftsDropOneBit : Prop :=
  ∀ (s : State) (x y : Nibble),
    (∃ t, exec (.shr x y) s = .next t ∧ t.pc = s.pc + 2 ∧ (x ≠ 15 → (t.reg x).toNat = (s.reg x).toNat / 2) ∧
      (t.reg 15).toNat = (s.reg x).toNat % 2 ∧ KeepsRegsBut (fun r => r = x ∨ r = 15) s t ∧ KeepsAllButRegs s t) ∧
    (∃ t, exec (.shl x y) s = .next t ∧ t.pc = s.pc + 2 ∧ (x ≠ 15 → (t.reg x).toNat = (s.reg x).toNat * 2 % 256) ∧
      (t.reg 15).toNat = (s.reg x).toNat / 128 ∧ KeepsRegsBut (fun r => r = x ∨ r = 15) s t ∧ KeepsAllButRegs s t)

/-! ### Index register and memory -/

/-- Annn: its encoding; `I` is `nnn`; nothing else changes (43_index_memory.md R130). -/
def Obligations.LoadIndexImmediate : Prop :=
  ∀ (s : State) (nnn : Imm12), decodeWord (0xA#4 ++ nnn) = .ok (.ldI nnn) ∧
    ∃ t, exec (.ldI nnn) s = .next t ∧ t.pc = s.pc + 2 ∧ t.i.toNat = nnn.toNat ∧ KeepsRegs s t ∧ KeepsStack s t ∧
      KeepsTimer s t ∧ KeepsDisplay s t ∧ KeepsInputs s t ∧ KeepsFault s t ∧ KeepsMemory s t

/-- Fx1E: `I + V[x]` modulo 65536, `VF` and every register kept, no fault (R131; the wrap is decision D12). -/
def Obligations.AddToIndexWrapsAt16Bits : Prop :=
  ∀ (s : State) (x : Nibble),
    ∃ t, exec (.addIVx x) s = .next t ∧ t.pc = s.pc + 2 ∧ t.i.toNat = (s.i.toNat + (s.reg x).toNat) % 65536 ∧
      KeepsRegs s t ∧ KeepsStack s t ∧ KeepsTimer s t ∧ KeepsDisplay s t ∧ KeepsInputs s t ∧ KeepsFault s t ∧
      KeepsMemory s t

/-- Fx29: `I` is `5 * V[x]` for every `V[x]` (R132; above 15 this is decision D11). -/
def Obligations.FontAddressIsFiveTimesDigit : Prop :=
  ∀ (s : State) (x : Nibble),
    ∃ t, exec (.ldFVx x) s = .next t ∧ t.pc = s.pc + 2 ∧ t.i.toNat = 5 * (s.reg x).toNat ∧
      KeepsRegs s t ∧ KeepsStack s t ∧ KeepsTimer s t ∧ KeepsDisplay s t ∧ KeepsInputs s t ∧ KeepsFault s t ∧
      KeepsMemory s t

/-- Fx33 (R133): the three digits at `I`, `I + 1`, `I + 2` and nothing else; with `I >= 4094` it raises
`DataOutOfRange(max(I, 4096))` and writes nothing (that such an access faults is decision D5). -/
def Obligations.BcdStoresThreeDigits : Prop :=
  ∀ (s : State) (x : Nibble),
    (s.i.toNat + 2 < 4096 → ∃ t, exec (.ldBVx x) s = .next t ∧ t.pc = s.pc + 2 ∧
      (s.mem.wf = true → (t.mem.peek s.i.toNat).toNat = (s.reg x).toNat / 100 ∧
        (t.mem.peek (s.i.toNat + 1)).toNat = (s.reg x).toNat / 10 % 10 ∧
        (t.mem.peek (s.i.toNat + 2)).toNat = (s.reg x).toNat % 10) ∧
      KeepsMemoryOutside s.i.toNat 3 s t ∧ KeepsRegs s t ∧ KeepsIndex s t ∧ KeepsStack s t ∧ KeepsTimer s t ∧
      KeepsDisplay s t ∧ KeepsInputs s t ∧ KeepsFault s t) ∧
    (4096 ≤ s.i.toNat + 2 → ∃ t, exec (.ldBVx x) s = .next t ∧ t.halt = true ∧ t.fault.cause = .dataOutOfRange ∧
      t.fault.pc = s.pc ∧ t.fault.info.toNat = max s.i.toNat 4096 ∧ KeepsAllButFault s t)

/-- Fx55 (R134): `V[0]` to `V[x]` at `I` upward, `I` one past the last byte; out of range it raises and changes nothing
else (D5). -/
def Obligations.BlockStoreWritesRegisters : Prop :=
  ∀ (s : State) (x : Nibble),
    (s.i.toNat + x.toNat < 4096 → ∃ t, exec (.ldMemVx x) s = .next t ∧ t.pc = s.pc + 2 ∧
      t.i.toNat = s.i.toNat + x.toNat + 1 ∧
      (s.mem.wf = true → ∀ k : Nibble, k.toNat ≤ x.toNat → t.mem.peek (s.i.toNat + k.toNat) = s.reg k) ∧
      KeepsMemoryOutside s.i.toNat (x.toNat + 1) s t ∧ KeepsRegs s t ∧ KeepsStack s t ∧ KeepsTimer s t ∧
      KeepsDisplay s t ∧ KeepsInputs s t ∧ KeepsFault s t) ∧
    (4096 ≤ s.i.toNat + x.toNat → ∃ t, exec (.ldMemVx x) s = .next t ∧ t.halt = true ∧
      t.fault.cause = .dataOutOfRange ∧ t.fault.pc = s.pc ∧ t.fault.info.toNat = max s.i.toNat 4096 ∧
      KeepsAllButFault s t)

/-- Fx65 (R135): `V[0]` to `V[x]` from memory at `I` upward, `I` one past the last byte, registers above `x` kept; out of
range it raises and changes nothing else (D5). -/
def Obligations.BlockLoadReadsRegisters : Prop :=
  ∀ (s : State) (x : Nibble),
    (s.i.toNat + x.toNat < 4096 → ∃ t, exec (.ldVxMem x) s = .next t ∧ t.pc = s.pc + 2 ∧
      t.i.toNat = s.i.toNat + x.toNat + 1 ∧
      (∀ k : Nibble, k.toNat ≤ x.toNat → t.reg k = s.mem.peek (s.i.toNat + k.toNat)) ∧
      KeepsRegsBut (fun r => r.toNat ≤ x.toNat) s t ∧ KeepsStack s t ∧ KeepsTimer s t ∧ KeepsDisplay s t ∧
      KeepsInputs s t ∧ KeepsFault s t ∧ KeepsMemory s t) ∧
    (4096 ≤ s.i.toNat + x.toNat → ∃ t, exec (.ldVxMem x) s = .next t ∧ t.halt = true ∧
      t.fault.cause = .dataOutOfRange ∧ t.fault.pc = s.pc ∧ t.fault.info.toNat = max s.i.toNat 4096 ∧
      KeepsAllButFault s t)

/-- Registers stored by Fx55 come back by Fx65 once `I` is reloaded (43_index_memory.md R135, corner cases; a read
returns the latest write, 20_memory.md R58). -/
def Obligations.BlockStoreThenLoadRestores : Prop :=
  ∀ (s t u : State) (x : Nibble), s.mem.wf = true → s.i.toNat + x.toNat < 4096 → exec (.ldMemVx x) s = .next t →
    u.mem = t.mem → u.i = s.i →
    ∃ v, exec (.ldVxMem x) u = .next v ∧ ∀ k : Nibble, k.toNat ≤ x.toNat → v.reg k = s.reg k

/-- Self-modifying code (20_memory.md R62, an inference the spec marks as derived): the word stored by Fx55 is what the
next fetch from its address reads. -/
def Obligations.StoredWordIsFetched : Prop :=
  ∀ (s t u : State) (x : Nibble), s.mem.wf = true → 1 ≤ x.toNat → s.i.toNat + x.toNat < 4096 →
    exec (.ldMemVx x) s = .next t → u.mem = t.mem → u.pc = s.i →
    u.fetch = some (wordOfBytes (s.reg 0) (s.reg 1))

/-! ### Display -/

/-- 00E0: its encoding; every pixel off and DIRTY set, whatever was there; `VF` and the rest kept (44_display.md R141). -/
def Obligations.ClearTurnsEveryPixelOff : Prop :=
  (∀ w : Word, decodeWord w = .ok .cls ↔ w.toNat = 0x00E0) ∧
  ∀ s : State, ∃ t, exec .cls s = .next t ∧ t.pc = s.pc + 2 ∧ (∀ r c, t.fb.pixel r c = false) ∧ t.dirty = true ∧
    KeepsRegs s t ∧ KeepsIndex s t ∧ KeepsStack s t ∧ KeepsTimer s t ∧ KeepsInputs s t ∧ KeepsFault s t ∧
    KeepsMemory s t

/-- Dxyn (R142, R145): a pixel changes exactly when a sprite bit of 1 lands on it, wrapping by the grid's dimensions;
`VF` is 1 exactly when such a bit met a pixel that was set, else 0; DIRTY is set; nothing else changes. With `n >= 1` and
`I + n - 1 >= 4096` it raises `DataOutOfRange(max(I, 4096))` and changes nothing else (that it faults is decision D5). The
bit order is D8, the case `n = 0` D22. -/
def Obligations.DrawTogglesSpritePixels : Prop :=
  ∀ (s : State) (x y n : Nibble),
    (n.toNat = 0 ∨ s.i.toNat + n.toNat - 1 < 4096 → ∃ t, exec (.drw x y n) s = .next t ∧ t.pc = s.pc + 2 ∧
      (∀ (r : Fin 32) (c : Fin 64), t.fb.pixel r c ≠ s.fb.pixel r c ↔
        ∃ row col, SpriteBitSet s n.toNat row col ∧ ((s.reg y).toNat + row) % 32 = r.val ∧
          ((s.reg x).toNat + col) % 64 = c.val) ∧
      ((t.reg 15 = 1 ∧ ∃ row col, SpriteBitSet s n.toNat row col ∧
          s.fb.pixel (Fin.ofNat 32 ((s.reg y).toNat + row)) (Fin.ofNat 64 ((s.reg x).toNat + col)) = true) ∨
       (t.reg 15 = 0 ∧ ∀ row col, SpriteBitSet s n.toNat row col →
          s.fb.pixel (Fin.ofNat 32 ((s.reg y).toNat + row)) (Fin.ofNat 64 ((s.reg x).toNat + col)) = false)) ∧
      t.dirty = true ∧ KeepsRegsBut (· = 15) s t ∧ KeepsIndex s t ∧ KeepsStack s t ∧ KeepsTimer s t ∧
      KeepsInputs s t ∧ KeepsFault s t ∧ KeepsMemory s t) ∧
    (1 ≤ n.toNat ∧ 4096 ≤ s.i.toNat + n.toNat - 1 → ∃ t, exec (.drw x y n) s = .next t ∧ t.halt = true ∧
      t.fault.cause = .dataOutOfRange ∧ t.fault.pc = s.pc ∧ t.fault.info.toNat = max s.i.toNat 4096 ∧
      KeepsAllButFault s t)

/-- The draw-twice law (R146): the second draw restores every pixel; against a cleared display the first reports no
collision, the second reports one exactly when the sprite has a bit of 1 (that condition is the spec's own inference). -/
def Obligations.DrawingTwiceRestores : Prop :=
  ∀ (fb : FrameBuffer) (x0 y0 : Byte) (sprite : List Byte), sprite.length ≤ 15 →
    ((fb.draw x0 y0 sprite).1.draw x0 y0 sprite).1 = fb ∧
    (FrameBuffer.clear.draw x0 y0 sprite).2 = false ∧
    (((FrameBuffer.clear.draw x0 y0 sprite).1.draw x0 y0 sprite).2 = true ↔ ∃ b ∈ sprite, b ≠ 0)

/-! ### Keypad, random, timer -/

/-- Ex9E and ExA1 (45_keypad_timer_random.md R150, R151): the level of latch `V[x]` decides the skip; `V[x] > 15` raises
`KeyIndexOutOfRange(V[x])`, which changes nothing but HALT and FAULT (that it faults is decision D6). -/
def Obligations.SkipOnKeyLevel : Prop :=
  ∀ (s : State) (x : Nibble),
    (∀ k : Fin 16, (s.reg x).toNat = k.val →
      (∃ t, exec (.skp x) s = .next t ∧ t.pc = (if s.key[k.val] = true then s.pc + 4 else s.pc + 2) ∧
        KeepsAllButPc s t) ∧
      (∃ t, exec (.sknp x) s = .next t ∧ t.pc = (if s.key[k.val] = true then s.pc + 2 else s.pc + 4) ∧
        KeepsAllButPc s t)) ∧
    (15 < (s.reg x).toNat → ∀ i : Instr, i = .skp x ∨ i = .sknp x →
      ∃ t, exec i s = .next t ∧ t.halt = true ∧ t.fault.cause = .keyIndexOutOfRange ∧ t.fault.pc = s.pc ∧
        t.fault.info.toNat = (s.reg x).toNat ∧ KeepsAllButFault s t)

/-- Fx0A (R152): with a key down, `V[x]` is the least one down and the pc advances (least is decision D10); with none
down, the pc stays and nothing changes. -/
def Obligations.WaitForKeyStoresLeastKey : Prop :=
  ∀ (s : State) (x : Nibble),
    (∀ k : Fin 16, s.key[k.val] = true → (∀ j : Fin 16, j < k → s.key[j.val] = false) →
      ∃ t, exec (.ldVxK x) s = .next t ∧ t.pc = s.pc + 2 ∧ (t.reg x).toNat = k.val ∧ KeepsRegsBut (· = x) s t ∧
        KeepsAllButRegs s t) ∧
    ((∀ k : Fin 16, s.key[k.val] = false) →
      ∃ t, exec (.ldVxK x) s = .next t ∧ t.pc = s.pc ∧ KeepsAllButPc s t)

/-- Cxnn (R153): `V[x]` is a byte under the mask `nn`, 0 wherever the mask is 0. The byte is the free value of R157: the
statement holds whatever it is. -/
def Obligations.RandomByteUnderMask : Prop :=
  ∀ (s : State) (x : Nibble) (nn : Byte),
    ∃ t, exec (.rnd x nn) s = .next t ∧ t.pc = s.pc + 2 ∧
      (∃ rnd : Byte, rnd = Config.rnd s.draws ∧
        ∀ k, k < 8 → (t.reg x).getLsbD k = (rnd.getLsbD k && nn.getLsbD k)) ∧
      t.draws = s.draws + 1 ∧ KeepsRegsBut (· = x) s t ∧ KeepsIndex s t ∧ KeepsStack s t ∧ KeepsTimer s t ∧
      KeepsDisplay s t ∧ t.key = s.key ∧ KeepsFault s t ∧ KeepsMemory s t

/-- Fx07, Fx15, Fx18 (R154 to R156): their encodings; the timer into a register; a register into the timer; nothing; and
the tick that ends the same step, on the timer as the instruction left it. -/
def Obligations.TimerReadSetAndSoundNoOp : Prop :=
  ∀ (s : State) (x : Nibble),
    decodeWord (0xF#4 ++ x ++ 0x07#8) = .ok (.ldVxDt x) ∧ decodeWord (0xF#4 ++ x ++ 0x15#8) = .ok (.ldDtVx x) ∧
    decodeWord (0xF#4 ++ x ++ 0x18#8) = .ok (.ldStVx x) ∧
    (∃ t, exec (.ldVxDt x) s = .next t ∧ t.pc = s.pc + 2 ∧ t.reg x = s.dt ∧ KeepsRegsBut (· = x) s t ∧
      KeepsAllButRegs s t) ∧
    (∃ t, exec (.ldDtVx x) s = .next t ∧ t.pc = s.pc + 2 ∧ t.dt = s.reg x ∧ KeepsRegs s t ∧ KeepsIndex s t ∧
      KeepsStack s t ∧ KeepsDisplay s t ∧ KeepsInputs s t ∧ KeepsFault s t ∧ KeepsMemory s t) ∧
    (∃ t, exec (.ldStVx x) s = .next t ∧ t.pc = s.pc + 2 ∧ KeepsAllButPc s t) ∧
    (s.halt = false →
      (∃ u, finishStep (exec (.ldVxDt x) s) = .next u ∧ u.reg x = s.dt ∧ u.dt.toNat = s.dt.toNat - 1) ∧
      (∃ u, finishStep (exec (.ldDtVx x) s) = .next u ∧ u.dt.toNat = (s.reg x).toNat - 1) ∧
      (∃ u, finishStep (exec (.ldStVx x) s) = .next u ∧ u.dt.toNat = s.dt.toNat - 1))

/-- The timer runs while it is read: an Fx15 step followed at once by an Fy07 step leaves `V[x] - 1` (0 for 0) in
`V[y]`, not `V[x]` (70_reset_and_hazards.md R197, an inference the spec marks as derived). -/
def Obligations.TimerReadAfterSetLosesOne : Prop :=
  ∀ (s t u : State) (w w' : Word) (x y : Nibble), s.halt = false → s.fetch = some w → decodeWord w = .ok (.ldDtVx x) →
    step s = .next t → t.fetch = some w' → decodeWord w' = .ok (.ldVxDt y) → step t = .next u →
    (u.reg y).toNat = (s.reg x).toNat - 1

/-! ### Ends of a run, waiting, the empty machine -/

/-- A self-jump is the end of a run (60_exceptions.md R186, decision D30): for any number of steps nothing but the timer
changes, and the block is still in the self-jump. -/
def Obligations.SelfJumpIsAnEnd : Prop :=
  ∀ (s : State) (n : Nat), s.WellEnded →
    ∃ t, stepsFrom n s = some t ∧ t = { s with dt := t.dt } ∧ t.dt.toNat = s.dt.toNat - n ∧ t.WellEnded

/-- A wait goes on for ever unless the host presses a key, and ends in the very step after it does (R185, R152). -/
def Obligations.OnlyTheHostEndsAWait : Prop :=
  ∀ (s : State) (n : Nat), s.Waiting →
    ∃ t, stepsFrom n s = some t ∧ t = { s with dt := t.dt } ∧ t.dt.toNat = s.dt.toNat - n ∧ t.Waiting ∧
      ∀ k : Nibble, ∃ u x, step (t.keySet k true) = .next u ∧ decodeWord (wordOfBytes (s.mem.peek s.pc.toNat)
        (s.mem.peek (s.pc.toNat + 1))) = .ok (.ldVxK x) ∧ u.pc = s.pc + 2 ∧ (u.reg x).toNat = k.toNat

/-- One run, from reset: with nothing loaded the block runs 1792 reported no-operations and then faults at 4096 (70_reset_and_hazards.md
R191, an inference the spec marks as derived). -/
def Obligations.EmptyMachineRunsOffMemory : Prop :=
  (∀ k : Nat, k < 1792 → ∃ s t, stepsFrom k State.reset = some s ∧ s.pc.toNat = 0x200 + 2 * k ∧ step s = .next t ∧
    stepOutcome s t = .doneUnrecognized 0 s.pc) ∧
  ∃ s, stepsFrom 1793 State.reset = some s ∧ s.halt = true ∧ s.fault = ⟨.fetchOutOfRange, 4096, 4096⟩

/-! ### Host operations -/

/-- The program load (R193): each byte that fits stands at 0x200 upward, the rest is dropped, nothing else changes. After
the first step the operation has no meaning (decision D20) and the model stops. -/
def Obligations.LoadCopiesTheProgram : Prop :=
  ∀ (s : State) (bytes : List Byte),
    (s.mem.wf = true → ∀ (k : Nat) (h : k < bytes.length), 0x200 + k ≤ 4095 →
      (s.load bytes).mem.peek (0x200 + k) = bytes[k]) ∧
    (∀ a : Nat, a < 0x200 ∨ 0x200 + bytes.length ≤ a ∨ 4096 ≤ a → (s.load bytes).mem.peek a = s.mem.peek a) ∧
    s.load bytes = { s with mem := (s.load bytes).mem } ∧
    hostOp (.load bytes) ⟨s, false⟩ = .next (⟨s.load bytes, false⟩, .nothing) ∧
    hostOp (.load bytes) ⟨s, true⟩ = .fault .loadDuringRun

/-- The other host operations (R179 to R181, R178): a key latch set, the frame and the fault record read, the dirty flag
cleared (the clear is decision D15, the 4-bit index D29). -/
def Obligations.HostPortsTouchOnlyTheirs : Prop :=
  ∀ (b : Block) (k : Nibble) (p : Bool),
    (∃ b', hostOp (.keySet k p) b = .next (b', .nothing) ∧ b' = { b with state := { b.state with key := b'.state.key } } ∧
      ∀ j : Nibble, b'.state.key[j.toNat]'j.isLt = if j = k then p else b.state.key[j.toNat]'j.isLt) ∧
    hostOp .presentAck b = .next ({ b with state := { b.state with dirty := false } }, .nothing) ∧
    hostOp .readFrame b = .next (b, .frame b.state.fb b.state.dirty) ∧
    hostOp .readFault b = .next (b, .faultRecord b.state.halt b.state.fault)

/-- Reset is total and possible in any state, with any font (R178, R190, decisions D25 and D9): bytes 0 to 79 hold the
80 bytes the host gives, every other byte is 0, and every other field is that of `State.reset`; a halted block runs again,
a load is allowed again. With the default font the memory is that of `State.reset` too. Only the model's own draw index is
kept (notes/assumptions/2.md). -/
def Obligations.ResetIsTotal : Prop :=
  ∀ (b : Block) (font : Vector Byte 80),
    ∃ m, hostOp (.reset font) b = .next (⟨{ State.reset with mem := m, draws := b.state.draws }, false⟩, .nothing) ∧
      (∀ k : Fin 80, m.peek k.val = font[k.val]) ∧ (∀ a : Nat, 80 ≤ a → m.peek a = 0) ∧ m.wf = true ∧
      (font.toList = fontTable → m = State.reset.mem)
end

