-- ==== Sys2Proof/Laws/State.lean ====
section
/-!
SUPPORT. One lemma per field of State for each update, so that no proof unfolds a record update; and what a register reads
after each of them.
-/

namespace Sys2Proof.Machine

/-! ### `setReg` -/

@[simp] theorem State.setReg_mem (s : State) (x : Nibble) (b : Byte) : (s.setReg x b).mem = s.mem := rfl
@[simp] theorem State.setReg_v (s : State) (x : Nibble) (b : Byte) : (s.setReg x b).v = s.v.set x.toNat b x.isLt := rfl
@[simp] theorem State.setReg_i (s : State) (x : Nibble) (b : Byte) : (s.setReg x b).i = s.i := rfl
@[simp] theorem State.setReg_pc (s : State) (x : Nibble) (b : Byte) : (s.setReg x b).pc = s.pc := rfl
@[simp] theorem State.setReg_stack (s : State) (x : Nibble) (b : Byte) : (s.setReg x b).stack = s.stack := rfl
@[simp] theorem State.setReg_sp (s : State) (x : Nibble) (b : Byte) : (s.setReg x b).sp = s.sp := rfl
@[simp] theorem State.setReg_dt (s : State) (x : Nibble) (b : Byte) : (s.setReg x b).dt = s.dt := rfl
@[simp] theorem State.setReg_fb (s : State) (x : Nibble) (b : Byte) : (s.setReg x b).fb = s.fb := rfl
@[simp] theorem State.setReg_dirty (s : State) (x : Nibble) (b : Byte) : (s.setReg x b).dirty = s.dirty := rfl
@[simp] theorem State.setReg_key (s : State) (x : Nibble) (b : Byte) : (s.setReg x b).key = s.key := rfl
@[simp] theorem State.setReg_halt (s : State) (x : Nibble) (b : Byte) : (s.setReg x b).halt = s.halt := rfl
@[simp] theorem State.setReg_fault (s : State) (x : Nibble) (b : Byte) : (s.setReg x b).fault = s.fault := rfl
@[simp] theorem State.setReg_draws (s : State) (x : Nibble) (b : Byte) : (s.setReg x b).draws = s.draws := rfl

/-! ### `setPc` -/

@[simp] theorem State.setPc_mem (s : State) (w : Word) : (s.setPc w).mem = s.mem := rfl
@[simp] theorem State.setPc_v (s : State) (w : Word) : (s.setPc w).v = s.v := rfl
@[simp] theorem State.setPc_i (s : State) (w : Word) : (s.setPc w).i = s.i := rfl
@[simp] theorem State.setPc_pc (s : State) (w : Word) : (s.setPc w).pc = w := rfl
@[simp] theorem State.setPc_stack (s : State) (w : Word) : (s.setPc w).stack = s.stack := rfl
@[simp] theorem State.setPc_sp (s : State) (w : Word) : (s.setPc w).sp = s.sp := rfl
@[simp] theorem State.setPc_dt (s : State) (w : Word) : (s.setPc w).dt = s.dt := rfl
@[simp] theorem State.setPc_fb (s : State) (w : Word) : (s.setPc w).fb = s.fb := rfl
@[simp] theorem State.setPc_dirty (s : State) (w : Word) : (s.setPc w).dirty = s.dirty := rfl
@[simp] theorem State.setPc_key (s : State) (w : Word) : (s.setPc w).key = s.key := rfl
@[simp] theorem State.setPc_halt (s : State) (w : Word) : (s.setPc w).halt = s.halt := rfl
@[simp] theorem State.setPc_fault (s : State) (w : Word) : (s.setPc w).fault = s.fault := rfl
@[simp] theorem State.setPc_draws (s : State) (w : Word) : (s.setPc w).draws = s.draws := rfl

/-! ### `setI` -/

@[simp] theorem State.setI_mem (s : State) (w : Word) : (s.setI w).mem = s.mem := rfl
@[simp] theorem State.setI_v (s : State) (w : Word) : (s.setI w).v = s.v := rfl
@[simp] theorem State.setI_i (s : State) (w : Word) : (s.setI w).i = w := rfl
@[simp] theorem State.setI_pc (s : State) (w : Word) : (s.setI w).pc = s.pc := rfl
@[simp] theorem State.setI_stack (s : State) (w : Word) : (s.setI w).stack = s.stack := rfl
@[simp] theorem State.setI_sp (s : State) (w : Word) : (s.setI w).sp = s.sp := rfl
@[simp] theorem State.setI_dt (s : State) (w : Word) : (s.setI w).dt = s.dt := rfl
@[simp] theorem State.setI_fb (s : State) (w : Word) : (s.setI w).fb = s.fb := rfl
@[simp] theorem State.setI_dirty (s : State) (w : Word) : (s.setI w).dirty = s.dirty := rfl
@[simp] theorem State.setI_key (s : State) (w : Word) : (s.setI w).key = s.key := rfl
@[simp] theorem State.setI_halt (s : State) (w : Word) : (s.setI w).halt = s.halt := rfl
@[simp] theorem State.setI_fault (s : State) (w : Word) : (s.setI w).fault = s.fault := rfl
@[simp] theorem State.setI_draws (s : State) (w : Word) : (s.setI w).draws = s.draws := rfl

/-! ### `advance` -/

@[simp] theorem State.advance_mem (s : State) : (s.advance).mem = s.mem := rfl
@[simp] theorem State.advance_v (s : State) : (s.advance).v = s.v := rfl
@[simp] theorem State.advance_i (s : State) : (s.advance).i = s.i := rfl
@[simp] theorem State.advance_pc (s : State) : (s.advance).pc = s.pc + 2 := rfl
@[simp] theorem State.advance_stack (s : State) : (s.advance).stack = s.stack := rfl
@[simp] theorem State.advance_sp (s : State) : (s.advance).sp = s.sp := rfl
@[simp] theorem State.advance_dt (s : State) : (s.advance).dt = s.dt := rfl
@[simp] theorem State.advance_fb (s : State) : (s.advance).fb = s.fb := rfl
@[simp] theorem State.advance_dirty (s : State) : (s.advance).dirty = s.dirty := rfl
@[simp] theorem State.advance_key (s : State) : (s.advance).key = s.key := rfl
@[simp] theorem State.advance_halt (s : State) : (s.advance).halt = s.halt := rfl
@[simp] theorem State.advance_fault (s : State) : (s.advance).fault = s.fault := rfl
@[simp] theorem State.advance_draws (s : State) : (s.advance).draws = s.draws := rfl

/-! ### `raise` -/

@[simp] theorem State.raise_mem (s : State) (c : FaultCause) (w : Word) : (s.raise c w).mem = s.mem := rfl
@[simp] theorem State.raise_v (s : State) (c : FaultCause) (w : Word) : (s.raise c w).v = s.v := rfl
@[simp] theorem State.raise_i (s : State) (c : FaultCause) (w : Word) : (s.raise c w).i = s.i := rfl
@[simp] theorem State.raise_pc (s : State) (c : FaultCause) (w : Word) : (s.raise c w).pc = s.pc := rfl
@[simp] theorem State.raise_stack (s : State) (c : FaultCause) (w : Word) : (s.raise c w).stack = s.stack := rfl
@[simp] theorem State.raise_sp (s : State) (c : FaultCause) (w : Word) : (s.raise c w).sp = s.sp := rfl
@[simp] theorem State.raise_dt (s : State) (c : FaultCause) (w : Word) : (s.raise c w).dt = s.dt := rfl
@[simp] theorem State.raise_fb (s : State) (c : FaultCause) (w : Word) : (s.raise c w).fb = s.fb := rfl
@[simp] theorem State.raise_dirty (s : State) (c : FaultCause) (w : Word) : (s.raise c w).dirty = s.dirty := rfl
@[simp] theorem State.raise_key (s : State) (c : FaultCause) (w : Word) : (s.raise c w).key = s.key := rfl
@[simp] theorem State.raise_halt (s : State) (c : FaultCause) (w : Word) : (s.raise c w).halt = true := rfl
@[simp] theorem State.raise_fault (s : State) (c : FaultCause) (w : Word) : (s.raise c w).fault = ⟨c, s.pc, w⟩ := rfl
@[simp] theorem State.raise_draws (s : State) (c : FaultCause) (w : Word) : (s.raise c w).draws = s.draws := rfl

/-! ### `raiseData` -/

@[simp] theorem State.raiseData_mem (s : State) : (s.raiseData).mem = s.mem := rfl
@[simp] theorem State.raiseData_v (s : State) : (s.raiseData).v = s.v := rfl
@[simp] theorem State.raiseData_i (s : State) : (s.raiseData).i = s.i := rfl
@[simp] theorem State.raiseData_pc (s : State) : (s.raiseData).pc = s.pc := rfl
@[simp] theorem State.raiseData_stack (s : State) : (s.raiseData).stack = s.stack := rfl
@[simp] theorem State.raiseData_sp (s : State) : (s.raiseData).sp = s.sp := rfl
@[simp] theorem State.raiseData_dt (s : State) : (s.raiseData).dt = s.dt := rfl
@[simp] theorem State.raiseData_fb (s : State) : (s.raiseData).fb = s.fb := rfl
@[simp] theorem State.raiseData_dirty (s : State) : (s.raiseData).dirty = s.dirty := rfl
@[simp] theorem State.raiseData_key (s : State) : (s.raiseData).key = s.key := rfl
@[simp] theorem State.raiseData_halt (s : State) : (s.raiseData).halt = true := rfl
@[simp] theorem State.raiseData_fault (s : State) : (s.raiseData).fault = ⟨.dataOutOfRange, s.pc, BitVec.ofNat 16 (max s.i.toNat Config.memSize)⟩ := rfl
@[simp] theorem State.raiseData_draws (s : State) : (s.raiseData).draws = s.draws := rfl

/-! ### `setFlag` -/

@[simp] theorem State.setFlag_mem (s : State) (f : Bool) : (s.setFlag f).mem = s.mem := rfl
@[simp] theorem State.setFlag_v (s : State) (f : Bool) : (s.setFlag f).v = s.v.set 15 (flagByte f) := rfl
@[simp] theorem State.setFlag_i (s : State) (f : Bool) : (s.setFlag f).i = s.i := rfl
@[simp] theorem State.setFlag_pc (s : State) (f : Bool) : (s.setFlag f).pc = s.pc := rfl
@[simp] theorem State.setFlag_stack (s : State) (f : Bool) : (s.setFlag f).stack = s.stack := rfl
@[simp] theorem State.setFlag_sp (s : State) (f : Bool) : (s.setFlag f).sp = s.sp := rfl
@[simp] theorem State.setFlag_dt (s : State) (f : Bool) : (s.setFlag f).dt = s.dt := rfl
@[simp] theorem State.setFlag_fb (s : State) (f : Bool) : (s.setFlag f).fb = s.fb := rfl
@[simp] theorem State.setFlag_dirty (s : State) (f : Bool) : (s.setFlag f).dirty = s.dirty := rfl
@[simp] theorem State.setFlag_key (s : State) (f : Bool) : (s.setFlag f).key = s.key := rfl
@[simp] theorem State.setFlag_halt (s : State) (f : Bool) : (s.setFlag f).halt = s.halt := rfl
@[simp] theorem State.setFlag_fault (s : State) (f : Bool) : (s.setFlag f).fault = s.fault := rfl
@[simp] theorem State.setFlag_draws (s : State) (f : Bool) : (s.setFlag f).draws = s.draws := rfl

/-! ### `setRegFlag` -/

@[simp] theorem State.setRegFlag_mem (s : State) (x : Nibble) (b : Byte) (f : Bool) : (s.setRegFlag x b f).mem = s.mem := rfl
@[simp] theorem State.setRegFlag_v (s : State) (x : Nibble) (b : Byte) (f : Bool) : (s.setRegFlag x b f).v = (s.v.set x.toNat b x.isLt).set 15 (flagByte f) := rfl
@[simp] theorem State.setRegFlag_i (s : State) (x : Nibble) (b : Byte) (f : Bool) : (s.setRegFlag x b f).i = s.i := rfl
@[simp] theorem State.setRegFlag_pc (s : State) (x : Nibble) (b : Byte) (f : Bool) : (s.setRegFlag x b f).pc = s.pc := rfl
@[simp] theorem State.setRegFlag_stack (s : State) (x : Nibble) (b : Byte) (f : Bool) : (s.setRegFlag x b f).stack = s.stack := rfl
@[simp] theorem State.setRegFlag_sp (s : State) (x : Nibble) (b : Byte) (f : Bool) : (s.setRegFlag x b f).sp = s.sp := rfl
@[simp] theorem State.setRegFlag_dt (s : State) (x : Nibble) (b : Byte) (f : Bool) : (s.setRegFlag x b f).dt = s.dt := rfl
@[simp] theorem State.setRegFlag_fb (s : State) (x : Nibble) (b : Byte) (f : Bool) : (s.setRegFlag x b f).fb = s.fb := rfl
@[simp] theorem State.setRegFlag_dirty (s : State) (x : Nibble) (b : Byte) (f : Bool) : (s.setRegFlag x b f).dirty = s.dirty := rfl
@[simp] theorem State.setRegFlag_key (s : State) (x : Nibble) (b : Byte) (f : Bool) : (s.setRegFlag x b f).key = s.key := rfl
@[simp] theorem State.setRegFlag_halt (s : State) (x : Nibble) (b : Byte) (f : Bool) : (s.setRegFlag x b f).halt = s.halt := rfl
@[simp] theorem State.setRegFlag_fault (s : State) (x : Nibble) (b : Byte) (f : Bool) : (s.setRegFlag x b f).fault = s.fault := rfl
@[simp] theorem State.setRegFlag_draws (s : State) (x : Nibble) (b : Byte) (f : Bool) : (s.setRegFlag x b f).draws = s.draws := rfl

/-! ### `setRegBlock` -/

@[simp] theorem State.setRegBlock_mem (s : State) (bs : List Byte) : (s.setRegBlock bs).mem = s.mem := rfl
@[simp] theorem State.setRegBlock_v (s : State) (bs : List Byte) : (s.setRegBlock bs).v = setRegsFrom s.v 0 bs := rfl
@[simp] theorem State.setRegBlock_i (s : State) (bs : List Byte) : (s.setRegBlock bs).i = s.i := rfl
@[simp] theorem State.setRegBlock_pc (s : State) (bs : List Byte) : (s.setRegBlock bs).pc = s.pc := rfl
@[simp] theorem State.setRegBlock_stack (s : State) (bs : List Byte) : (s.setRegBlock bs).stack = s.stack := rfl
@[simp] theorem State.setRegBlock_sp (s : State) (bs : List Byte) : (s.setRegBlock bs).sp = s.sp := rfl
@[simp] theorem State.setRegBlock_dt (s : State) (bs : List Byte) : (s.setRegBlock bs).dt = s.dt := rfl
@[simp] theorem State.setRegBlock_fb (s : State) (bs : List Byte) : (s.setRegBlock bs).fb = s.fb := rfl
@[simp] theorem State.setRegBlock_dirty (s : State) (bs : List Byte) : (s.setRegBlock bs).dirty = s.dirty := rfl
@[simp] theorem State.setRegBlock_key (s : State) (bs : List Byte) : (s.setRegBlock bs).key = s.key := rfl
@[simp] theorem State.setRegBlock_halt (s : State) (bs : List Byte) : (s.setRegBlock bs).halt = s.halt := rfl
@[simp] theorem State.setRegBlock_fault (s : State) (bs : List Byte) : (s.setRegBlock bs).fault = s.fault := rfl
@[simp] theorem State.setRegBlock_draws (s : State) (bs : List Byte) : (s.setRegBlock bs).draws = s.draws := rfl

/-! ### `maskRandom` -/

@[simp] theorem State.maskRandom_mem (s : State) (r : Byte) (x : Nibble) (nn : Byte) : (s.maskRandom r x nn).mem = s.mem := rfl
@[simp] theorem State.maskRandom_v (s : State) (r : Byte) (x : Nibble) (nn : Byte) : (s.maskRandom r x nn).v = s.v.set x.toNat (r &&& nn) x.isLt := rfl
@[simp] theorem State.maskRandom_i (s : State) (r : Byte) (x : Nibble) (nn : Byte) : (s.maskRandom r x nn).i = s.i := rfl
@[simp] theorem State.maskRandom_pc (s : State) (r : Byte) (x : Nibble) (nn : Byte) : (s.maskRandom r x nn).pc = s.pc := rfl
@[simp] theorem State.maskRandom_stack (s : State) (r : Byte) (x : Nibble) (nn : Byte) : (s.maskRandom r x nn).stack = s.stack := rfl
@[simp] theorem State.maskRandom_sp (s : State) (r : Byte) (x : Nibble) (nn : Byte) : (s.maskRandom r x nn).sp = s.sp := rfl
@[simp] theorem State.maskRandom_dt (s : State) (r : Byte) (x : Nibble) (nn : Byte) : (s.maskRandom r x nn).dt = s.dt := rfl
@[simp] theorem State.maskRandom_fb (s : State) (r : Byte) (x : Nibble) (nn : Byte) : (s.maskRandom r x nn).fb = s.fb := rfl
@[simp] theorem State.maskRandom_dirty (s : State) (r : Byte) (x : Nibble) (nn : Byte) : (s.maskRandom r x nn).dirty = s.dirty := rfl
@[simp] theorem State.maskRandom_key (s : State) (r : Byte) (x : Nibble) (nn : Byte) : (s.maskRandom r x nn).key = s.key := rfl
@[simp] theorem State.maskRandom_halt (s : State) (r : Byte) (x : Nibble) (nn : Byte) : (s.maskRandom r x nn).halt = s.halt := rfl
@[simp] theorem State.maskRandom_fault (s : State) (r : Byte) (x : Nibble) (nn : Byte) : (s.maskRandom r x nn).fault = s.fault := rfl
@[simp] theorem State.maskRandom_draws (s : State) (r : Byte) (x : Nibble) (nn : Byte) : (s.maskRandom r x nn).draws = s.draws := rfl

/-! ### `keySet` -/

@[simp] theorem State.keySet_mem (s : State) (k : Nibble) (p : Bool) : (s.keySet k p).mem = s.mem := rfl
@[simp] theorem State.keySet_v (s : State) (k : Nibble) (p : Bool) : (s.keySet k p).v = s.v := rfl
@[simp] theorem State.keySet_i (s : State) (k : Nibble) (p : Bool) : (s.keySet k p).i = s.i := rfl
@[simp] theorem State.keySet_pc (s : State) (k : Nibble) (p : Bool) : (s.keySet k p).pc = s.pc := rfl
@[simp] theorem State.keySet_stack (s : State) (k : Nibble) (p : Bool) : (s.keySet k p).stack = s.stack := rfl
@[simp] theorem State.keySet_sp (s : State) (k : Nibble) (p : Bool) : (s.keySet k p).sp = s.sp := rfl
@[simp] theorem State.keySet_dt (s : State) (k : Nibble) (p : Bool) : (s.keySet k p).dt = s.dt := rfl
@[simp] theorem State.keySet_fb (s : State) (k : Nibble) (p : Bool) : (s.keySet k p).fb = s.fb := rfl
@[simp] theorem State.keySet_dirty (s : State) (k : Nibble) (p : Bool) : (s.keySet k p).dirty = s.dirty := rfl
@[simp] theorem State.keySet_key (s : State) (k : Nibble) (p : Bool) : (s.keySet k p).key = s.key.set k.toNat p k.isLt := rfl
@[simp] theorem State.keySet_halt (s : State) (k : Nibble) (p : Bool) : (s.keySet k p).halt = s.halt := rfl
@[simp] theorem State.keySet_fault (s : State) (k : Nibble) (p : Bool) : (s.keySet k p).fault = s.fault := rfl
@[simp] theorem State.keySet_draws (s : State) (k : Nibble) (p : Bool) : (s.keySet k p).draws = s.draws := rfl

/-! ### `presentAck` -/

@[simp] theorem State.presentAck_mem (s : State) : (s.presentAck).mem = s.mem := rfl
@[simp] theorem State.presentAck_v (s : State) : (s.presentAck).v = s.v := rfl
@[simp] theorem State.presentAck_i (s : State) : (s.presentAck).i = s.i := rfl
@[simp] theorem State.presentAck_pc (s : State) : (s.presentAck).pc = s.pc := rfl
@[simp] theorem State.presentAck_stack (s : State) : (s.presentAck).stack = s.stack := rfl
@[simp] theorem State.presentAck_sp (s : State) : (s.presentAck).sp = s.sp := rfl
@[simp] theorem State.presentAck_dt (s : State) : (s.presentAck).dt = s.dt := rfl
@[simp] theorem State.presentAck_fb (s : State) : (s.presentAck).fb = s.fb := rfl
@[simp] theorem State.presentAck_dirty (s : State) : (s.presentAck).dirty = false := rfl
@[simp] theorem State.presentAck_key (s : State) : (s.presentAck).key = s.key := rfl
@[simp] theorem State.presentAck_halt (s : State) : (s.presentAck).halt = s.halt := rfl
@[simp] theorem State.presentAck_fault (s : State) : (s.presentAck).fault = s.fault := rfl
@[simp] theorem State.presentAck_draws (s : State) : (s.presentAck).draws = s.draws := rfl

/-! ### `load` -/

@[simp] theorem State.load_mem (s : State) (bs : List Byte) : (s.load bs).mem = loadBytes s.mem Config.progBase bs := rfl
@[simp] theorem State.load_v (s : State) (bs : List Byte) : (s.load bs).v = s.v := rfl
@[simp] theorem State.load_i (s : State) (bs : List Byte) : (s.load bs).i = s.i := rfl
@[simp] theorem State.load_pc (s : State) (bs : List Byte) : (s.load bs).pc = s.pc := rfl
@[simp] theorem State.load_stack (s : State) (bs : List Byte) : (s.load bs).stack = s.stack := rfl
@[simp] theorem State.load_sp (s : State) (bs : List Byte) : (s.load bs).sp = s.sp := rfl
@[simp] theorem State.load_dt (s : State) (bs : List Byte) : (s.load bs).dt = s.dt := rfl
@[simp] theorem State.load_fb (s : State) (bs : List Byte) : (s.load bs).fb = s.fb := rfl
@[simp] theorem State.load_dirty (s : State) (bs : List Byte) : (s.load bs).dirty = s.dirty := rfl
@[simp] theorem State.load_key (s : State) (bs : List Byte) : (s.load bs).key = s.key := rfl
@[simp] theorem State.load_halt (s : State) (bs : List Byte) : (s.load bs).halt = s.halt := rfl
@[simp] theorem State.load_fault (s : State) (bs : List Byte) : (s.load bs).fault = s.fault := rfl
@[simp] theorem State.load_draws (s : State) (bs : List Byte) : (s.load bs).draws = s.draws := rfl

/-! ### `resetWith` (R190) -/

@[simp] theorem State.resetWith_mem (s : State) (f : Vector Byte 80) : (s.resetWith f).mem = loadBytes [] 0 f.toList := rfl
@[simp] theorem State.resetWith_v (s : State) (f : Vector Byte 80) : (s.resetWith f).v = State.reset.v := rfl
@[simp] theorem State.resetWith_i (s : State) (f : Vector Byte 80) : (s.resetWith f).i = State.reset.i := rfl
@[simp] theorem State.resetWith_pc (s : State) (f : Vector Byte 80) : (s.resetWith f).pc = State.reset.pc := rfl
@[simp] theorem State.resetWith_stack (s : State) (f : Vector Byte 80) : (s.resetWith f).stack = State.reset.stack := rfl
@[simp] theorem State.resetWith_sp (s : State) (f : Vector Byte 80) : (s.resetWith f).sp = State.reset.sp := rfl
@[simp] theorem State.resetWith_dt (s : State) (f : Vector Byte 80) : (s.resetWith f).dt = State.reset.dt := rfl
@[simp] theorem State.resetWith_fb (s : State) (f : Vector Byte 80) : (s.resetWith f).fb = State.reset.fb := rfl
@[simp] theorem State.resetWith_dirty (s : State) (f : Vector Byte 80) : (s.resetWith f).dirty = State.reset.dirty := rfl
@[simp] theorem State.resetWith_key (s : State) (f : Vector Byte 80) : (s.resetWith f).key = State.reset.key := rfl
@[simp] theorem State.resetWith_halt (s : State) (f : Vector Byte 80) : (s.resetWith f).halt = State.reset.halt := rfl
@[simp] theorem State.resetWith_fault (s : State) (f : Vector Byte 80) : (s.resetWith f).fault = State.reset.fault := rfl
@[simp] theorem State.resetWith_draws (s : State) (f : Vector Byte 80) : (s.resetWith f).draws = s.draws := rfl

/-! ### `skipIf` (the pc) and `tick` (the timer) -/

@[simp] theorem State.skipIf_mem (s : State) (c : Bool) : (s.skipIf c).mem = s.mem := by cases c <;> rfl
@[simp] theorem State.skipIf_v (s : State) (c : Bool) : (s.skipIf c).v = s.v := by cases c <;> rfl
@[simp] theorem State.skipIf_i (s : State) (c : Bool) : (s.skipIf c).i = s.i := by cases c <;> rfl
@[simp] theorem State.skipIf_stack (s : State) (c : Bool) : (s.skipIf c).stack = s.stack := by cases c <;> rfl
@[simp] theorem State.skipIf_sp (s : State) (c : Bool) : (s.skipIf c).sp = s.sp := by cases c <;> rfl
@[simp] theorem State.skipIf_dt (s : State) (c : Bool) : (s.skipIf c).dt = s.dt := by cases c <;> rfl
@[simp] theorem State.skipIf_fb (s : State) (c : Bool) : (s.skipIf c).fb = s.fb := by cases c <;> rfl
@[simp] theorem State.skipIf_dirty (s : State) (c : Bool) : (s.skipIf c).dirty = s.dirty := by cases c <;> rfl
@[simp] theorem State.skipIf_key (s : State) (c : Bool) : (s.skipIf c).key = s.key := by cases c <;> rfl
@[simp] theorem State.skipIf_halt (s : State) (c : Bool) : (s.skipIf c).halt = s.halt := by cases c <;> rfl
@[simp] theorem State.skipIf_fault (s : State) (c : Bool) : (s.skipIf c).fault = s.fault := by cases c <;> rfl
@[simp] theorem State.skipIf_draws (s : State) (c : Bool) : (s.skipIf c).draws = s.draws := by cases c <;> rfl
@[simp] theorem State.skipIf_pc (s : State) (c : Bool) : (s.skipIf c).pc = if c then s.pc + 2 + 2 else s.pc + 2 := by
  cases c <;> rfl

@[simp] theorem State.tick_mem (s : State) : s.tick.mem = s.mem := by unfold State.tick; split <;> rfl
@[simp] theorem State.tick_v (s : State) : s.tick.v = s.v := by unfold State.tick; split <;> rfl
@[simp] theorem State.tick_i (s : State) : s.tick.i = s.i := by unfold State.tick; split <;> rfl
@[simp] theorem State.tick_pc (s : State) : s.tick.pc = s.pc := by unfold State.tick; split <;> rfl
@[simp] theorem State.tick_stack (s : State) : s.tick.stack = s.stack := by unfold State.tick; split <;> rfl
@[simp] theorem State.tick_sp (s : State) : s.tick.sp = s.sp := by unfold State.tick; split <;> rfl
@[simp] theorem State.tick_fb (s : State) : s.tick.fb = s.fb := by unfold State.tick; split <;> rfl
@[simp] theorem State.tick_dirty (s : State) : s.tick.dirty = s.dirty := by unfold State.tick; split <;> rfl
@[simp] theorem State.tick_key (s : State) : s.tick.key = s.key := by unfold State.tick; split <;> rfl
@[simp] theorem State.tick_halt (s : State) : s.tick.halt = s.halt := by unfold State.tick; split <;> rfl
@[simp] theorem State.tick_fault (s : State) : s.tick.fault = s.fault := by unfold State.tick; split <;> rfl
@[simp] theorem State.tick_draws (s : State) : s.tick.draws = s.draws := by unfold State.tick; split <;> rfl

/-- The tick subtracts 1 and stops at 0 (R95, R28). -/
theorem State.tick_dt (s : State) : s.tick.dt = if s.dt = 0 then 0 else s.dt - 1 := by
  unfold State.tick
  split <;> simp_all

/-! ### Reading registers after an update -/

theorem State.reg_eq (s : State) (r : Nibble) : s.reg r = s.v[r.toNat]'r.isLt := rfl

/-- Two states with the same register file read the same in every register. -/
theorem State.reg_congr {s t : State} (h : t.v = s.v) (r : Nibble) : t.reg r = s.reg r := by simp [State.reg, h]

@[simp] theorem State.reg_setReg (s : State) (x r : Nibble) (b : Byte) :
    (s.setReg x b).reg r = if r = x then b else s.reg r := by
  by_cases h : r = x
  · subst h; simp [State.reg]
  · have h' : ¬ x.toNat = r.toNat := fun e => h (BitVec.eq_of_toNat_eq e.symm)
    simp [State.reg, h, h']

@[simp] theorem State.reg_advance (s : State) (r : Nibble) : s.advance.reg r = s.reg r := rfl
@[simp] theorem State.reg_setPc (s : State) (w : Word) (r : Nibble) : (s.setPc w).reg r = s.reg r := rfl
@[simp] theorem State.reg_setI (s : State) (w : Word) (r : Nibble) : (s.setI w).reg r = s.reg r := rfl
@[simp] theorem State.reg_raise (s : State) (c : FaultCause) (w : Word) (r : Nibble) : (s.raise c w).reg r = s.reg r := rfl
@[simp] theorem State.reg_raiseData (s : State) (r : Nibble) : s.raiseData.reg r = s.reg r := rfl
@[simp] theorem State.reg_skipIf (s : State) (c : Bool) (r : Nibble) : (s.skipIf c).reg r = s.reg r := by cases c <;> rfl
@[simp] theorem State.reg_tick (s : State) (r : Nibble) : s.tick.reg r = s.reg r := State.reg_congr (by simp) r

/-- A flag write is a write of `VF` alone (R22). -/
@[simp] theorem State.reg_setFlag (s : State) (f : Bool) (r : Nibble) :
    (s.setFlag f).reg r = if r = 15 then flagByte f else s.reg r := State.reg_setReg s 15 r _

/-- Result and flag: the flag wins where the two meet (R9). -/
@[simp] theorem State.reg_setRegFlag (s : State) (x : Nibble) (b : Byte) (f : Bool) (r : Nibble) :
    (s.setRegFlag x b f).reg r = if r = 15 then flagByte f else if r = x then b else s.reg r := by
  simp [State.setRegFlag]

@[simp] theorem State.reg_maskRandom (s : State) (rb : Byte) (x : Nibble) (nn : Byte) (r : Nibble) :
    (s.maskRandom rb x nn).reg r = if r = x then rb &&& nn else s.reg r := State.reg_setReg s x r _

/-- Undoing the advance: Fx0A with no key down leaves the state as it was (R152). -/
@[simp] theorem State.advance_back (s : State) : s.advance.setPc (s.advance.pc - 2) = s := by
  simp [State.advance, State.setPc]

end Sys2Proof.Machine
end

