-- ==== Sys2Proof/Laws/Draw.lean ====
section
/-!
SUPPORT. The blitter, pixel by pixel (spec/44_display.md R142, R145): the loop of the draw is a sequence of toggles at
positions that never repeat, so a pixel changes exactly when a sprite bit of 1 lands on it, and the collision bit says
whether such a bit met a pixel that was set before.
-/

namespace Sys2Proof.Machine

theorem FrameBuffer.pixel_toggle (fb : FrameBuffer) (r r' : Fin 32) (c c' : Fin 64) :
    (fb.toggle r c).pixel r' c' = (fb.pixel r' c' ^^ decide (r = r' ∧ c = c')) := by
  unfold FrameBuffer.pixel FrameBuffer.toggle
  by_cases hr : r = r'
  · subst hr
    simp only [Vector.getElem_set_self, BitVec.getLsbD_xor, BitVec.getLsbD_twoPow, true_and]
    congr 1
    by_cases hc : c = c'
    · subst hc; simp
    · have : ¬ c.val = c'.val := fun h => hc (Fin.ext h)
      simp [hc, this]
  · have : r.val ≠ r'.val := fun h => hr (Fin.ext h)
    simp [hr, this]

@[simp] theorem FrameBuffer.pixel_clear (r : Fin 32) (c : Fin 64) : FrameBuffer.clear.pixel r c = false := by
  simp [FrameBuffer.clear, FrameBuffer.pixel]

/-- One sprite bit of 1 at a position: toggle it, and note whether it was set. -/
def hit (acc : FrameBuffer × Bool) (p : Fin 32 × Fin 64) : FrameBuffer × Bool :=
  (acc.1.toggle p.1 p.2, acc.2 || acc.1.pixel p.1 p.2)

/-- The positions the bits of one sprite row land on. -/
def rowHits (x0 y0 : Byte) (row : Nat) (b : Byte) : List (Fin 32 × Fin 64) :=
  ([0, 1, 2, 3, 4, 5, 6, 7].filter (spriteBit b)).map fun col => (pixelRow y0 row, pixelCol x0 col)

/-- The positions the bits of a sprite land on, from row number `row` down. -/
def spriteHits (x0 y0 : Byte) (row : Nat) (sprite : List Byte) : List (Fin 32 × Fin 64) :=
  match sprite with
  | []     => []
  | b :: r => rowHits x0 y0 row b ++ spriteHits x0 y0 (row + 1) r

theorem drawRow_eq (x0 y0 : Byte) (row : Nat) (b : Byte) (acc : FrameBuffer × Bool) :
    drawRow x0 y0 row b acc = (rowHits x0 y0 row b).foldl hit acc := by
  rw [rowHits, List.foldl_map, List.foldl_filter]
  rfl

theorem drawRows_eq (x0 y0 : Byte) (row : Nat) (sprite : List Byte) (acc : FrameBuffer × Bool) :
    drawRows x0 y0 row sprite acc = (spriteHits x0 y0 row sprite).foldl hit acc := by
  induction sprite generalizing row acc with
  | nil => rfl
  | cons b r ih => rw [drawRows, ih, spriteHits, List.foldl_append, drawRow_eq]

/-- Toggles at distinct positions: each listed pixel changes once, and the collision looks at the pixels before. -/
theorem foldl_hit {l : List (Fin 32 × Fin 64)} (hl : l.Nodup) (acc : FrameBuffer × Bool) :
    (∀ r c, (l.foldl hit acc).1.pixel r c = (acc.1.pixel r c ^^ decide ((r, c) ∈ l))) ∧
    (l.foldl hit acc).2 = (acc.2 || l.any fun p => acc.1.pixel p.1 p.2) := by
  induction l generalizing acc with
  | nil => simp
  | cons p t ih =>
    obtain ⟨hp, ht⟩ := List.nodup_cons.1 hl
    obtain ⟨i1, i2⟩ := ih ht (hit acc p)
    constructor
    · intro r c
      rw [List.foldl_cons, i1]
      simp only [hit, FrameBuffer.pixel_toggle, List.mem_cons]
      by_cases he : (r, c) = p
      · subst he
        simp [hp]
      · have h1 : ¬ (p.1 = r ∧ p.2 = c) := fun h => he (Prod.ext h.1.symm h.2.symm)
        simp [he, h1]
    · rw [List.foldl_cons, i2]
      simp only [hit, List.any_cons, Bool.or_assoc]
      have hq : ∀ q ∈ t, (acc.1.toggle p.1 p.2).pixel q.1 q.2 = acc.1.pixel q.1 q.2 := by
        intro q hq
        have : ¬ (p.1 = q.1 ∧ p.2 = q.2) := fun h => hp (by rw [Prod.ext h.1 h.2]; exact hq)
        simp [FrameBuffer.pixel_toggle, this]
      congr 2
      rw [Bool.eq_iff_iff, List.any_eq_true, List.any_eq_true]
      exact exists_congr fun q => and_congr_right fun hm => by rw [hq q hm]

theorem mem_rowHits {x0 y0 : Byte} {row : Nat} {b : Byte} {r : Fin 32} {c : Fin 64} :
    (r, c) ∈ rowHits x0 y0 row b ↔
      ∃ col, col < 8 ∧ spriteBit b col = true ∧ (y0.toNat + row) % 32 = r.val ∧ (x0.toNat + col) % 64 = c.val := by
  simp only [rowHits, List.mem_map, List.mem_filter, Prod.mk.injEq]
  constructor
  · rintro ⟨col, ⟨hm, hb⟩, hr, hc⟩
    subst hr hc
    refine ⟨col, ?_, hb, rfl, rfl⟩
    simp at hm; omega
  · rintro ⟨col, hlt, hb, hr, hc⟩
    refine ⟨col, ⟨?_, hb⟩, Fin.ext hr, Fin.ext hc⟩
    simp; omega

theorem mem_spriteHits {x0 y0 : Byte} {row : Nat} {sprite : List Byte} {r : Fin 32} {c : Fin 64} :
    (r, c) ∈ spriteHits x0 y0 row sprite ↔
      ∃ k, ∃ h : k < sprite.length, ∃ col, col < 8 ∧ spriteBit sprite[k] col = true ∧
        (y0.toNat + (row + k)) % 32 = r.val ∧ (x0.toNat + col) % 64 = c.val := by
  induction sprite generalizing row with
  | nil => simp [spriteHits]
  | cons b t ih =>
    rw [spriteHits, List.mem_append, mem_rowHits, ih]
    constructor
    · rintro (h | ⟨k, hk, h⟩)
      · exact ⟨0, by simp, by simpa using h⟩
      · refine ⟨k + 1, by simpa using hk, ?_⟩
        rw [show row + (k + 1) = row + 1 + k by omega]
        simpa using h
    · rintro ⟨k, hk, h⟩
      cases k with
      | zero => exact Or.inl (by simpa using h)
      | succ j =>
        refine Or.inr ⟨j, by simpa using hk, ?_⟩
        rw [show row + 1 + j = row + (j + 1) by omega]
        simpa using h

theorem rowHits_nodup (x0 y0 : Byte) (row : Nat) (b : Byte) : (rowHits x0 y0 row b).Nodup := by
  refine List.Nodup.map_on ?_ (List.Nodup.filter _ (by decide))
  intro i hi j hj h
  have hc := congrArg (fun p : Fin 32 × Fin 64 => p.2.val) h
  simp only [pixelCol, Fin.val_ofNat] at hc
  have hi' : i < 8 := by have := List.mem_of_mem_filter hi; simp at this; omega
  have hj' : j < 8 := by have := List.mem_of_mem_filter hj; simp at this; omega
  omega

/-- R145: no pixel is hit twice in one draw of at most 32 rows. -/
theorem spriteHits_nodup (x0 y0 : Byte) (row : Nat) {sprite : List Byte} (h : sprite.length ≤ 32) :
    (spriteHits x0 y0 row sprite).Nodup := by
  induction sprite generalizing row with
  | nil => exact List.nodup_nil
  | cons b t ih =>
    simp only [List.length_cons] at h
    rw [spriteHits, List.nodup_append]
    refine ⟨rowHits_nodup x0 y0 row b, ih (row + 1) (by omega), ?_⟩
    rintro ⟨r, c⟩ h1 ⟨r', c'⟩ h2 he
    cases he
    obtain ⟨_, _, _, hr, _⟩ := mem_rowHits.1 h1
    obtain ⟨k, hk, _, _, _, hr', _⟩ := mem_spriteHits.1 h2
    omega

/-- All a draw does: a pixel changes exactly when a sprite bit of 1 lands on it. -/
theorem FrameBuffer.pixel_draw (fb : FrameBuffer) (x0 y0 : Byte) {sprite : List Byte} (h : sprite.length ≤ 32)
    (r : Fin 32) (c : Fin 64) :
    (fb.draw x0 y0 sprite).1.pixel r c = (fb.pixel r c ^^ decide ((r, c) ∈ spriteHits x0 y0 0 sprite)) := by
  rw [FrameBuffer.draw, drawRows_eq]
  exact (foldl_hit (spriteHits_nodup x0 y0 0 h) (fb, false)).1 r c

/-- The collision of a draw: some sprite bit of 1 met a pixel that was set before. -/
theorem FrameBuffer.collision_draw (fb : FrameBuffer) (x0 y0 : Byte) {sprite : List Byte} (h : sprite.length ≤ 32) :
    (fb.draw x0 y0 sprite).2 = (spriteHits x0 y0 0 sprite).any fun p => fb.pixel p.1 p.2 := by
  rw [FrameBuffer.draw, drawRows_eq, (foldl_hit (spriteHits_nodup x0 y0 0 h) (fb, false)).2, Bool.false_or]

/-- Two framebuffers with the same pixels are the same. -/
theorem FrameBuffer.ext_pixel {f g : FrameBuffer} (h : ∀ r c, f.pixel r c = g.pixel r c) : f = g := by
  refine Vector.ext fun i hi => BitVec.eq_of_getLsbD_eq fun j hj => ?_
  exact h ⟨i, hi⟩ ⟨j, hj⟩

end Sys2Proof.Machine
end

