-- ==== Sys2Proof/Laws/Encoding.lean ====
section
/-!
SUPPORT. Words and their fields as numbers (spec/30_encoding.md R71, R72): the value of each format, the value of each
field, and what each field of an encoded word reads back.
-/

namespace Sys2Proof

theorem toNat_append_add {m n : Nat} (a : BitVec m) (b : BitVec n) :
    (a ++ b).toNat = a.toNat * 2 ^ n + b.toNat := by
  rw [BitVec.toNat_append, ← Nat.shiftLeft_add_eq_or_of_lt b.isLt, Nat.shiftLeft_eq]

/-! ### The value of a field -/

theorem fieldOp_toNat (w : Word) : (fieldOp w).toNat = w.toNat / 4096 := by
  have := w.isLt
  simp [fieldOp, Nat.shiftRight_eq_div_pow]; omega

theorem fieldX_toNat (w : Word) : (fieldX w).toNat = w.toNat / 256 % 16 := by
  simp [fieldX, Nat.shiftRight_eq_div_pow]

theorem fieldY_toNat (w : Word) : (fieldY w).toNat = w.toNat / 16 % 16 := by
  simp [fieldY, Nat.shiftRight_eq_div_pow]

theorem fieldN_toNat (w : Word) : (fieldN w).toNat = w.toNat % 16 := by
  simp [fieldN]

theorem fieldNN_toNat (w : Word) : (fieldNN w).toNat = w.toNat % 256 := by
  simp [fieldNN]

theorem fieldNNN_toNat (w : Word) : (fieldNNN w).toNat = w.toNat % 4096 := by
  simp [fieldNNN]

/-- The big-endian word: `MEM[a] * 256 + MEM[a+1]` (spec/20_memory.md R51). -/
theorem wordOfBytes_toNat (hi lo : Byte) : (wordOfBytes hi lo).toNat = hi.toNat * 256 + lo.toNat :=
  toNat_append_add hi lo

theorem highByte_toNat (w : Word) : (highByte w).toNat = w.toNat / 256 := by
  have := w.isLt
  simp [highByte, Nat.shiftRight_eq_div_pow]; omega

theorem lowByte_toNat (w : Word) : (lowByte w).toNat = w.toNat % 256 := by
  simp [lowByte]

/-- A word is its two bytes, the high one first. -/
@[simp] theorem wordOfBytes_bytes (w : Word) : wordOfBytes (highByte w) (lowByte w) = w := by
  apply BitVec.eq_of_toNat_eq
  rw [wordOfBytes_toNat, highByte_toNat, lowByte_toNat]
  omega

/-! ### The value of a format -/

theorem encodeA_toNat (op : Nibble) (nnn : Imm12) : (encodeA op nnn).toNat = op.toNat * 4096 + nnn.toNat :=
  toNat_append_add op nnn

theorem encodeI_toNat (op x : Nibble) (nn : Byte) :
    (encodeI op x nn).toNat = op.toNat * 4096 + x.toNat * 256 + nn.toNat := by
  refine (toNat_append_add (op ++ x) nn).trans ?_
  rw [toNat_append_add op x]
  ring

theorem encodeR_toNat (op x y n : Nibble) :
    (encodeR op x y n).toNat = op.toNat * 4096 + x.toNat * 256 + y.toNat * 16 + n.toNat := by
  refine (toNat_append_add (op ++ x ++ y) n).trans ?_
  rw [toNat_append_add (op ++ x) y, toNat_append_add op x]
  ring

/-! ### What a field of an encoded word reads -/

@[simp] theorem fieldOp_encodeA (op : Nibble) (nnn : Imm12) : fieldOp (encodeA op nnn) = op := by
  have := nnn.isLt
  apply BitVec.eq_of_toNat_eq; rw [fieldOp_toNat, encodeA_toNat]; omega

@[simp] theorem fieldNNN_encodeA (op : Nibble) (nnn : Imm12) : fieldNNN (encodeA op nnn) = nnn := by
  have := nnn.isLt
  apply BitVec.eq_of_toNat_eq; rw [fieldNNN_toNat, encodeA_toNat]; omega

@[simp] theorem fieldOp_encodeI (op x : Nibble) (nn : Byte) : fieldOp (encodeI op x nn) = op := by
  have := x.isLt; have := nn.isLt
  apply BitVec.eq_of_toNat_eq; rw [fieldOp_toNat, encodeI_toNat]; omega

@[simp] theorem fieldX_encodeI (op x : Nibble) (nn : Byte) : fieldX (encodeI op x nn) = x := by
  have := x.isLt; have := nn.isLt
  apply BitVec.eq_of_toNat_eq; rw [fieldX_toNat, encodeI_toNat]; omega

@[simp] theorem fieldNN_encodeI (op x : Nibble) (nn : Byte) : fieldNN (encodeI op x nn) = nn := by
  have := nn.isLt
  apply BitVec.eq_of_toNat_eq; rw [fieldNN_toNat, encodeI_toNat]; omega

@[simp] theorem fieldOp_encodeR (op x y n : Nibble) : fieldOp (encodeR op x y n) = op := by
  have := x.isLt; have := y.isLt; have := n.isLt
  apply BitVec.eq_of_toNat_eq; rw [fieldOp_toNat, encodeR_toNat]; omega

@[simp] theorem fieldX_encodeR (op x y n : Nibble) : fieldX (encodeR op x y n) = x := by
  have := x.isLt; have := y.isLt; have := n.isLt
  apply BitVec.eq_of_toNat_eq; rw [fieldX_toNat, encodeR_toNat]; omega

@[simp] theorem fieldY_encodeR (op x y n : Nibble) : fieldY (encodeR op x y n) = y := by
  have := y.isLt; have := n.isLt
  apply BitVec.eq_of_toNat_eq; rw [fieldY_toNat, encodeR_toNat]; omega

@[simp] theorem fieldN_encodeR (op x y n : Nibble) : fieldN (encodeR op x y n) = n := by
  have := n.isLt
  apply BitVec.eq_of_toNat_eq; rw [fieldN_toNat, encodeR_toNat]; omega

/-! ### A word from its fields -/

theorem encodeA_fields (w : Word) : encodeA (fieldOp w) (fieldNNN w) = w := by
  apply BitVec.eq_of_toNat_eq; rw [encodeA_toNat, fieldOp_toNat, fieldNNN_toNat]; omega

theorem encodeI_fields (w : Word) : encodeI (fieldOp w) (fieldX w) (fieldNN w) = w := by
  apply BitVec.eq_of_toNat_eq; rw [encodeI_toNat, fieldOp_toNat, fieldX_toNat, fieldNN_toNat]; omega

theorem encodeR_fields (w : Word) : encodeR (fieldOp w) (fieldX w) (fieldY w) (fieldN w) = w := by
  apply BitVec.eq_of_toNat_eq; rw [encodeR_toNat, fieldOp_toNat, fieldX_toNat, fieldY_toNat, fieldN_toNat]; omega

end Sys2Proof
end

