-- ==== Sys2Proof/Laws/Memory.lean ====
section
/-!
SUPPORT. Memory: reads after writes, the canonical form kept by every operation, and what a span of reads or writes and a
program load do (spec/20_memory.md R55, R56, R63; spec/70_reset_and_hazards.md R193).
-/

namespace Sys2Proof.Machine

/-! ### The canonical form -/

theorem Memory.wfFrom_cons {lo a : Nat} {w : Byte} {r : Memory} :
    Memory.wfFrom lo ((a, w) :: r) = true ↔
      lo ≤ a ∧ a < Config.memSize ∧ w ≠ unlistedByte a ∧ Memory.wfFrom (a + 1) r = true := by
  simp [Memory.wfFrom, and_assoc]

theorem Memory.wfFrom_mono {lo lo' : Nat} (h : lo' ≤ lo) {m : Memory} (hm : m.wfFrom lo = true) :
    m.wfFrom lo' = true := by
  cases m with
  | nil => rfl
  | cons c r =>
    obtain ⟨a, w⟩ := c
    rw [Memory.wfFrom_cons] at hm ⊢
    exact ⟨by omega, hm.2⟩

/-- Below the lowest listed address every byte is the reset content. -/
theorem Memory.peek_below {lo a : Nat} (h : a < lo) {m : Memory} (hm : m.wfFrom lo = true) :
    m.peek a = unlistedByte a := by
  induction m generalizing lo with
  | nil => rfl
  | cons c r ih =>
    obtain ⟨b, w⟩ := c
    rw [Memory.wfFrom_cons] at hm
    rw [Memory.peek, if_neg (by omega)]
    exact ih (by omega) hm.2.2.2

theorem Memory.wfFrom_poke {lo a : Nat} {v : Byte} {m : Memory} (hm : m.wfFrom lo = true) (hl : lo ≤ a)
    (ha : a < Config.memSize) : (m.poke a v).wfFrom lo = true := by
  induction m generalizing lo with
  | nil =>
    unfold Memory.poke
    split
    · rfl
    · rename_i h; rw [Memory.wfFrom_cons]; exact ⟨hl, ha, h, rfl⟩
  | cons c r ih =>
    obtain ⟨b, w⟩ := c
    have hc := Memory.wfFrom_cons.1 hm
    unfold Memory.poke
    split
    · rename_i hlt
      split
      · exact hm
      · rename_i h
        rw [Memory.wfFrom_cons]
        exact ⟨hl, ha, h, Memory.wfFrom_mono (by omega) (Memory.wfFrom_cons.2 ⟨Nat.le_refl b, hc.2⟩)⟩
    · split
      · rename_i heq
        subst heq
        split
        · exact Memory.wfFrom_mono (by omega) hc.2.2.2
        · rename_i h; rw [Memory.wfFrom_cons]; exact ⟨hl, ha, h, hc.2.2.2⟩
      · rw [Memory.wfFrom_cons]
        exact ⟨hc.1, hc.2.1, hc.2.2.1, ih hc.2.2.2 (by omega)⟩

/-- A write keeps the canonical form. -/
theorem Memory.wf_poke {a : Nat} {v : Byte} {m : Memory} (hm : m.wf = true) (ha : a < Config.memSize) :
    (m.poke a v).wf = true := Memory.wfFrom_poke hm (Nat.zero_le a) ha

/-! ### One byte -/

/-- A write leaves every other address alone, whatever the form of the memory. -/
theorem Memory.peek_poke_other {a b : Nat} (h : b ≠ a) (v : Byte) (m : Memory) :
    (m.poke a v).peek b = m.peek b := by
  induction m with
  | nil => unfold Memory.poke; split <;> simp [Memory.peek, h]
  | cons c r ih =>
    obtain ⟨d, w⟩ := c
    unfold Memory.poke
    split
    · split <;> simp [Memory.peek, h]
    · split
      · rename_i heq; subst heq; split <;> simp [Memory.peek, h]
      · simp [Memory.peek, ih]

theorem Memory.peek_poke_from {lo a : Nat} {v : Byte} {m : Memory} (hm : m.wfFrom lo = true) :
    (m.poke a v).peek a = v := by
  induction m generalizing lo with
  | nil =>
    unfold Memory.poke
    split
    · rename_i h; exact h.symm
    · simp [Memory.peek]
  | cons c r ih =>
    obtain ⟨b, w⟩ := c
    have hc := Memory.wfFrom_cons.1 hm
    unfold Memory.poke
    split
    · rename_i hlt
      split
      · rename_i h
        rw [h, Memory.peek_below hlt (Memory.wfFrom_cons.2 ⟨Nat.le_refl b, hc.2⟩)]
      · simp [Memory.peek]
    · split
      · rename_i heq
        subst heq
        split
        · rename_i h; rw [h, Memory.peek_below (Nat.lt_succ_self a) hc.2.2.2]
        · simp [Memory.peek]
      · rename_i hne; rw [Memory.peek, if_neg hne]; exact ih hc.2.2.2

/-- A read after a write to the same address gives the value written. -/
theorem Memory.peek_poke_same {a : Nat} {v : Byte} {m : Memory} (hm : m.wf = true) : (m.poke a v).peek a = v :=
  Memory.peek_poke_from hm

theorem memRead_eq (m : Memory) (a : Nat) : memRead m a = if a < 4096 then some (m.peek a) else none := by
  simp only [memRead, Config.memSize]; split <;> split <;> first | rfl | omega

theorem memWrite_eq (m : Memory) (a : Nat) (v : Byte) :
    memWrite m a v = if a < 4096 then some (m.poke a v) else none := by
  simp only [memWrite, Config.memSize]; split <;> split <;> first | rfl | omega

/-! ### Spans -/

/-- All a span of reads can do: it fails exactly when it is not empty and reaches beyond 4095 (R63). -/
theorem readSpan_eq (m : Memory) (a n : Nat) :
    readSpan m a n = if n = 0 ∨ a + n ≤ 4096 then some ((List.range n).map fun k => m.peek (a + k)) else none := by
  induction n generalizing a with
  | zero => simp [readSpan]
  | succ k ih =>
    rw [readSpan, memRead_eq, ih (a + 1)]
    by_cases h : a + (k + 1) ≤ 4096
    · rw [if_pos (by omega), if_pos (by omega), if_pos (by omega)]
      simp only [List.range_succ_eq_map, List.map_cons, List.map_map, Nat.add_zero, Option.some.injEq, List.cons.injEq,
        true_and]
      refine List.map_congr_left fun j _ => ?_
      simp [Nat.add_assoc, Nat.add_comm 1 j]
    · rw [if_neg (show ¬(k + 1 = 0 ∨ a + (k + 1) ≤ 4096) by omega)]
      by_cases ha : a < 4096
      · rw [if_pos ha, if_neg (by omega)]
      · rw [if_neg ha]

theorem readSpan_length {m : Memory} {a n : Nat} {bs : List Byte} (h : readSpan m a n = some bs) : bs.length = n := by
  rw [readSpan_eq] at h
  split at h
  · cases h; simp
  · cases h

/-- The failure in the terms of R63: the span is not empty and its last byte lies at 4096 or above. -/
theorem readSpan_eq_none {m : Memory} {a n : Nat} : readSpan m a n = none ↔ 1 ≤ n ∧ 4096 ≤ a + n - 1 := by
  rw [readSpan_eq]
  split
  · simp only [reduceCtorEq, false_iff]; omega
  · simp only [true_iff]; omega

/-- A span of writes fails exactly when it is not empty and reaches beyond 4095 (R63). -/
theorem writeSpan_isSome (m : Memory) (a : Nat) (bs : List Byte) :
    (writeSpan m a bs).isSome = true ↔ bs.length = 0 ∨ a + bs.length ≤ 4096 := by
  induction bs generalizing a m with
  | nil => simp [writeSpan]
  | cons b r ih =>
    rw [writeSpan, memWrite_eq]
    by_cases ha : a < 4096
    · simp only [if_pos ha, ih, List.length_cons]
      omega
    · simp only [if_neg ha, List.length_cons]
      simp only [Option.isSome_none, Bool.false_eq_true, false_iff]
      omega

/-- Bytes outside a span of writes read as before, whatever the form of the memory. -/
theorem writeSpan_other {m m' : Memory} {a : Nat} {bs : List Byte} (h : writeSpan m a bs = some m') {b : Nat}
    (hb : ¬ (a ≤ b ∧ b < a + bs.length)) : m'.peek b = m.peek b := by
  induction bs generalizing a m with
  | nil => cases h; rfl
  | cons c r ih =>
    rw [writeSpan, memWrite_eq] at h
    split at h
    · rename_i m1 h1
      split at h1
      · cases h1
        simp only [List.length_cons] at hb
        rw [ih h (by omega), Memory.peek_poke_other (by omega)]
      · cases h1
    · cases h

/-- A span of writes keeps the canonical form. -/
theorem writeSpan_wf {m m' : Memory} {a : Nat} {bs : List Byte} (h : writeSpan m a bs = some m') (hm : m.wf = true) :
    m'.wf = true := by
  induction bs generalizing a m with
  | nil => cases h; exact hm
  | cons c r ih =>
    rw [writeSpan, memWrite_eq] at h
    split at h
    · rename_i m1 h1
      split at h1
      · rename_i ha; cases h1; exact ih h (Memory.wf_poke hm ha)
      · cases h1
    · cases h

/-- A span of writes puts its bytes in place, the first at the lowest address. -/
theorem writeSpan_at {m m' : Memory} {a : Nat} {bs : List Byte} (h : writeSpan m a bs = some m') (hm : m.wf = true)
    (k : Nat) (hk : k < bs.length) : m'.peek (a + k) = bs[k] := by
  induction bs generalizing a m k with
  | nil => simp at hk
  | cons c r ih =>
    rw [writeSpan, memWrite_eq] at h
    split at h
    · rename_i m1 h1
      split at h1
      · rename_i ha
        cases h1
        cases k with
        | zero =>
          rw [Nat.add_zero, writeSpan_other h (by omega), Memory.peek_poke_same hm]; rfl
        | succ j =>
          have := ih h (Memory.wf_poke hm ha) j (by simpa using hk)
          rw [show a + (j + 1) = a + 1 + j by omega]
          simpa using this
      · cases h1
    · cases h

/-! ### The program load -/

/-- A load keeps the canonical form. -/
theorem loadBytes_wf {m : Memory} (hm : m.wf = true) (a : Nat) (bs : List Byte) : (loadBytes m a bs).wf = true := by
  induction bs generalizing a m with
  | nil => exact hm
  | cons c r ih =>
    rw [loadBytes]
    refine ih ?_ _
    split
    · rename_i ha; exact Memory.wf_poke hm ha
    · exact hm

/-- A load changes no byte outside its own. -/
theorem loadBytes_other (m : Memory) (a : Nat) (bs : List Byte) {b : Nat}
    (hb : ¬ (a ≤ b ∧ b < a + bs.length ∧ b < 4096)) : (loadBytes m a bs).peek b = m.peek b := by
  induction bs generalizing a m with
  | nil => rfl
  | cons c r ih =>
    rw [loadBytes]
    simp only [List.length_cons] at hb
    rw [ih _ _ (by omega)]
    split
    · rename_i ha; simp only [Config.memSize] at ha; exact Memory.peek_poke_other (by omega) _ _
    · rfl

/-- A load stores each byte that fits. -/
theorem loadBytes_at {m : Memory} (hm : m.wf = true) (a : Nat) (bs : List Byte) (k : Nat) (hk : k < bs.length)
    (ha : a + k < 4096) : (loadBytes m a bs).peek (a + k) = bs[k] := by
  induction bs generalizing a m k with
  | nil => simp at hk
  | cons c r ih =>
    have hlt : a < Config.memSize := by simp only [Config.memSize]; omega
    rw [loadBytes, if_pos hlt]
    cases k with
    | zero =>
      rw [loadBytes_other _ _ _ (by omega)]; exact Memory.peek_poke_same hm
    | succ j =>
      have := ih (Memory.wf_poke (v := c) hm hlt) (a + 1) j (by simpa using hk) (by omega)
      rw [show a + (j + 1) = a + 1 + j by omega]
      simpa using this

/-- Reset memory has the canonical form. -/
theorem Memory.wf_reset : State.reset.mem.wf = true := rfl

/-- Above the font an unlisted byte is 0 (spec/10_state.md R40). -/
theorem unlistedByte_above {a : Nat} (h : 80 ≤ a) : unlistedByte a = 0 := by
  rw [unlistedByte, List.getD_eq_getElem?_getD, List.getElem?_eq_none (by simpa [fontTable] using h)]
  rfl

end Sys2Proof.Machine
end

