-- ==== Sys2Proof/Laws/Ops.lean ====
section
/-!
SUPPORT. What each shared operation can do, said once: the stack, the fetch, register blocks, key latches, and the end of
a step. A proof cites these instead of unfolding the operation.
-/

namespace Sys2Proof.Machine

/-! ### The return stack (spec/41_flow.md R101, R103) -/

theorem State.push_eq_none {s : State} {w : Word} : s.push w = none ↔ s.sp.val = 16 := by
  have := s.sp.isLt
  unfold State.push
  split
  · rename_i h; simp only [reduceCtorEq, false_iff]; omega
  · rename_i h; simp only [true_iff]; omega

/-- A push writes the slot `SP` points at and moves `SP` up; nothing else changes. -/
theorem State.push_cases {s t : State} {w : Word} (h : s.push w = some t) :
    s.sp.val < 16 ∧ t.sp.val = s.sp.val + 1 ∧ t = { s with stack := t.stack, sp := t.sp } ∧
      ∀ k : Fin 16, t.stack[k.val] = if k.val = s.sp.val then w else s.stack[k.val] := by
  unfold State.push at h
  split at h
  · rename_i hlt
    cases h
    refine ⟨hlt, rfl, rfl, fun k => ?_⟩
    simp only [Vector.getElem_set, eq_comm]
  · cases h

theorem State.pop_eq_none {s : State} : s.pop = none ↔ s.sp.val = 0 := by
  unfold State.pop
  split
  · rename_i h; simp only [reduceCtorEq, false_iff]; omega
  · rename_i h; simp only [true_iff]; omega

/-- A pop moves `SP` down and answers the entry it then points at; the entry stays in place. -/
theorem State.pop_cases {s t : State} {w : Word} (h : s.pop = some (w, t)) :
    0 < s.sp.val ∧ t.sp.val + 1 = s.sp.val ∧ t = { s with sp := t.sp } ∧
      ∀ hk : s.sp.val - 1 < 16, w = s.stack[s.sp.val - 1] := by
  unfold State.pop at h
  split at h
  · rename_i hlt
    cases h
    exact ⟨hlt, by simp only; omega, rfl, fun _ => rfl⟩
  · cases h

/-! ### The fetch (spec/20_memory.md R53) -/

/-- The fetch answers a word exactly when `pc` and `pc + 1` are both below 4096. -/
theorem State.fetch_eq (s : State) :
    s.fetch = if s.pc.toNat + 1 < 4096 then
      some (wordOfBytes (s.mem.peek s.pc.toNat) (s.mem.peek (s.pc.toNat + 1))) else none := by
  unfold State.fetch
  rw [memRead_eq, memRead_eq]
  by_cases h : s.pc.toNat + 1 < 4096
  · rw [if_pos (by omega), if_pos h, if_pos h]
  · rw [if_neg h, if_neg h]; split <;> simp_all

/-! ### The end of a step (spec/40_step_cycle.md R95) -/

@[simp] theorem finishStep_next (t : State) : finishStep (.next t) = .next (if t.halt then t else t.tick) := rfl

/-! ### Key latches (spec/45_keypad_timer_random.md R152, R158) -/

theorem State.isPressed_eq_none {s : State} {k : Byte} : s.isPressed k = none ↔ 15 < k.toNat := by
  unfold State.isPressed
  split
  · rename_i h; simp only [reduceCtorEq, false_iff]; omega
  · rename_i h; simp only [true_iff]; omega

theorem State.isPressed_of_lt {s : State} {k : Byte} (h : k.toNat < 16) :
    s.isPressed k = some (s.key[k.toNat]'h) := by
  simp [State.isPressed, h]

theorem mem_keyIndices (k : Nibble) : k ∈ keyIndices := by
  revert k; decide

/-- The scan answers nothing exactly when no key is down. -/
theorem State.keyScan_eq_none {s : State} :
    s.keyScan = none ↔ ∀ k : Nibble, s.key[k.toNat]'k.isLt = false := by
  unfold State.keyScan
  rw [List.find?_eq_none]
  constructor
  · intro h k; simpa using h k (mem_keyIndices k)
  · intro h k _; simp [h k]

/-- The key the scan answers is down, and no lower one is. -/
theorem State.keyScan_eq_some {s : State} {k : Nibble} (h : s.keyScan = some k) :
    s.key[k.toNat]'k.isLt = true ∧ ∀ j : Nibble, j.toNat < k.toNat → s.key[j.toNat]'j.isLt = false := by
  unfold State.keyScan at h
  rw [List.find?_eq_some_iff_append] at h
  obtain ⟨hk, as, bs, hl, hn⟩ := h
  refine ⟨hk, fun j hj => ?_⟩
  have hsorted : List.Pairwise (fun a b : Nibble => a.toNat < b.toNat) keyIndices := by decide
  have hmem := mem_keyIndices j
  rw [hl] at hmem hsorted
  have hja : j ∈ as := by
    rcases List.mem_append.1 hmem with h1 | h1
    · exact h1
    · rcases List.mem_cons.1 h1 with h2 | h2
      · subst h2; omega
      · have := (List.pairwise_cons.1 (List.pairwise_append.1 hsorted).2.1).1 j h2
        omega
  simpa using hn j hja

/-! ### Register blocks (spec/43_index_memory.md R134, R135) -/

theorem State.regBlock_length (s : State) (x : Nibble) : (s.regBlock x).length = x.toNat + 1 := by
  have := x.isLt
  simp [State.regBlock]; omega

theorem State.regBlock_getElem (s : State) (x k : Nibble) (h : k.toNat < (s.regBlock x).length) :
    (s.regBlock x)[k.toNat] = s.reg k := by
  simp [State.regBlock, State.reg]

theorem setRegsFrom_getElem (v : Vector Byte 16) (k : Nat) (bs : List Byte) (j : Nat) (hj : j < 16) :
    (setRegsFrom v k bs)[j] = if h : k ≤ j ∧ j < k + bs.length then bs[j - k]'(by omega) else v[j] := by
  induction bs generalizing v k with
  | nil => rw [dif_neg (by simp)]; rfl
  | cons b r ih =>
    rw [setRegsFrom, ih]
    by_cases h1 : k + 1 ≤ j ∧ j < k + 1 + r.length
    · have h2 : k ≤ j ∧ j < k + (b :: r).length := by simp only [List.length_cons]; omega
      have h3 : j - k = (j - (k + 1)) + 1 := by omega
      simp only [dif_pos h1, dif_pos h2, h3, List.getElem_cons_succ]
    · rw [dif_neg h1]
      by_cases h2 : k = j
      · subst h2
        have h3 : k ≤ k ∧ k < k + (b :: r).length := by simp
        simp [hj]
      · have h3 : ¬ (k ≤ j ∧ j < k + (b :: r).length) := by simp only [List.length_cons]; omega
        rw [dif_neg h3]
        split
        · rw [Vector.getElem_set_ne]; exact h2
        · rfl

/-- A block of bytes lands in `V[0]` upward; the registers above it are kept. -/
theorem State.reg_setRegBlock (s : State) (bs : List Byte) (r : Nibble) :
    (s.setRegBlock bs).reg r = if h : r.toNat < bs.length then bs[r.toNat] else s.reg r := by
  simp only [State.reg, State.setRegBlock_v, setRegsFrom_getElem]
  by_cases h : r.toNat < bs.length
  · rw [dif_pos (by omega), dif_pos h]; simp
  · rw [dif_neg (by omega), dif_neg h]

end Sys2Proof.Machine
end

