-- ==== Sys2Proof/Laws/PerInstr.lean ====
section
/-!
SUPPORT. Statements about every instruction as syntax, one lemma per constructor. `OpcodeRow`: the word an instruction is
encoded as matches its own row of the opcode table (spec/30_encoding.md R74), whatever its operands.
-/

namespace Sys2Proof.Laws.OpcodeRow

/-- The instruction's row of R74. -/
def rowOf (i : Instr) : OpcodeRow :=
  match i with
  | .cls        => ⟨"CLS", 0xFFFF, 0x00E0⟩
  | .ret        => ⟨"RET", 0xFFFF, 0x00EE⟩
  | .jp _       => ⟨"JP_nnn", 0xF000, 0x1000⟩
  | .call _     => ⟨"CALL_nnn", 0xF000, 0x2000⟩
  | .seImm _ _  => ⟨"SE_Vx__nn", 0xF000, 0x3000⟩
  | .sneImm _ _ => ⟨"SNE_Vx__nn", 0xF000, 0x4000⟩
  | .seReg _ _  => ⟨"SE_Vx__Vy", 0xF00F, 0x5000⟩
  | .ldImm _ _  => ⟨"LD_Vx__nn", 0xF000, 0x6000⟩
  | .addImm _ _ => ⟨"ADD_Vx__nn", 0xF000, 0x7000⟩
  | .ldReg _ _  => ⟨"LD_Vx__Vy", 0xF00F, 0x8000⟩
  | .orReg _ _  => ⟨"OR_Vx__Vy", 0xF00F, 0x8001⟩
  | .andReg _ _ => ⟨"AND_Vx__Vy", 0xF00F, 0x8002⟩
  | .xorReg _ _ => ⟨"XOR_Vx__Vy", 0xF00F, 0x8003⟩
  | .addReg _ _ => ⟨"ADD_Vx__Vy", 0xF00F, 0x8004⟩
  | .subReg _ _ => ⟨"SUB_Vx__Vy", 0xF00F, 0x8005⟩
  | .shr _ _    => ⟨"SHR_Vx", 0xF00F, 0x8006⟩
  | .subn _ _   => ⟨"SUBN_Vx__Vy", 0xF00F, 0x8007⟩
  | .shl _ _    => ⟨"SHL_Vx", 0xF00F, 0x800E⟩
  | .sneReg _ _ => ⟨"SNE_Vx__Vy", 0xF00F, 0x9000⟩
  | .ldI _      => ⟨"LD_I__nnn", 0xF000, 0xA000⟩
  | .jpV0 _     => ⟨"JP_V0__nnn", 0xF000, 0xB000⟩
  | .rnd _ _    => ⟨"RND_Vx__nn", 0xF000, 0xC000⟩
  | .drw _ _ _  => ⟨"DRW_Vx__Vy__n", 0xF000, 0xD000⟩
  | .skp _      => ⟨"SKP_Vx", 0xF0FF, 0xE09E⟩
  | .sknp _     => ⟨"SKNP_Vx", 0xF0FF, 0xE0A1⟩
  | .ldVxDt _   => ⟨"LD_Vx__DT", 0xF0FF, 0xF007⟩
  | .ldVxK _    => ⟨"LD_Vx__K", 0xF0FF, 0xF00A⟩
  | .ldDtVx _   => ⟨"LD_DT__Vx", 0xF0FF, 0xF015⟩
  | .ldStVx _   => ⟨"LD_ST__Vx", 0xF0FF, 0xF018⟩
  | .addIVx _   => ⟨"ADD_I__Vx", 0xF0FF, 0xF01E⟩
  | .ldFVx _    => ⟨"LD_F__Vx", 0xF0FF, 0xF029⟩
  | .ldBVx _    => ⟨"LD_B__Vx", 0xF0FF, 0xF033⟩
  | .ldMemVx _  => ⟨"LD__I___Vx", 0xF0FF, 0xF055⟩
  | .ldVxMem _  => ⟨"LD_Vx___I", 0xF0FF, 0xF065⟩

/-- The instruction's row is a row of the table, and the encoded word matches it. -/
def Statement (i : Instr) : Prop := rowOf i ∈ opcodeTable ∧ (rowOf i).matches (encode i) = true

theorem rowOf_mem (i : Instr) : rowOf i ∈ opcodeTable := by
  cases i <;> simp [opcodeTable, opcodeRowsLow, opcodeRowsRegister, opcodeRowsHigh, rowOf]

theorem statement_of {i : Instr} (e : encode i &&& (rowOf i).mask = (rowOf i).pattern) : Statement i :=
  ⟨rowOf_mem i, beq_iff_eq.2 e⟩

/-! The formats under the masks of the table. -/

theorem encodeA_and (a b : Nibble) (p q : Imm12) : encodeA a p &&& encodeA b q = encodeA (a &&& b) (p &&& q) :=
  BitVec.and_append

theorem encodeI_and (a b x y : Nibble) (p q : Byte) :
    encodeI a x p &&& encodeI b y q = encodeI (a &&& b) (x &&& y) (p &&& q) :=
  (BitVec.and_append (x₁ := a ++ x) (x₂ := b ++ y)).trans (congrArg (· ++ (p &&& q)) BitVec.and_append)

theorem encodeR_split (a x y n : Nibble) : encodeR a x y n = encodeI a x (y ++ n) := by
  apply BitVec.eq_of_toNat_eq
  rw [encodeR_toNat, encodeI_toNat, toNat_append_add y n]
  ring

theorem encodeR_and (a b x x' y y' n n' : Nibble) :
    encodeR a x y n &&& encodeR b x' y' n' = encodeR (a &&& b) (x &&& x') (y &&& y') (n &&& n') := by
  simp only [encodeR_split, encodeI_and]
  congr 1
  exact BitVec.and_append

theorem mask_op (a : Nibble) (nnn : Imm12) : encodeA a nnn &&& 0xF000 = encodeA a 0 := by
  exact (encodeA_and a 0xF nnn 0).trans (congrArg₂ encodeA BitVec.and_allOnes BitVec.and_zero)

theorem mask_op_imm (a x : Nibble) (nn : Byte) : encodeI a x nn &&& 0xF000 = encodeI a 0 0 := by
  refine (encodeI_and a 0xF x 0 nn 0).trans ?_
  rw [show a &&& 0xF = a from BitVec.and_allOnes, show x &&& 0 = 0 from BitVec.and_zero,
    show nn &&& 0 = 0 from BitVec.and_zero]

theorem mask_op_byte (a x : Nibble) (nn : Byte) : encodeI a x nn &&& 0xF0FF = encodeI a 0 nn := by
  refine (encodeI_and a 0xF x 0 nn 0xFF).trans ?_
  rw [show a &&& 0xF = a from BitVec.and_allOnes, show x &&& 0 = 0 from BitVec.and_zero,
    show nn &&& 0xFF = nn from BitVec.and_allOnes]

theorem mask_op_n (a x y n : Nibble) : encodeR a x y n &&& 0xF00F = encodeR a 0 0 n := by
  refine (encodeR_and a 0xF x 0 y 0 n 0xF).trans ?_
  rw [show a &&& 0xF = a from BitVec.and_allOnes, show x &&& 0 = 0 from BitVec.and_zero,
    show y &&& 0 = 0 from BitVec.and_zero, show n &&& 0xF = n from BitVec.and_allOnes]

theorem mask_op_draw (a x y n : Nibble) : encodeR a x y n &&& 0xF000 = encodeR a 0 0 0 := by
  rw [encodeR_split, mask_op_imm, encodeR_split]
  rfl

/-! One lemma per constructor. -/

theorem cls : Statement .cls := statement_of rfl
theorem ret : Statement .ret := statement_of rfl
theorem jp (nnn : Imm12) : Statement (.jp nnn) := statement_of (mask_op _ nnn)
theorem call (nnn : Imm12) : Statement (.call nnn) := statement_of (mask_op _ nnn)
theorem seImm (x : Nibble) (nn : Byte) : Statement (.seImm x nn) := statement_of (mask_op_imm _ x nn)
theorem sneImm (x : Nibble) (nn : Byte) : Statement (.sneImm x nn) := statement_of (mask_op_imm _ x nn)
theorem seReg (x y : Nibble) : Statement (.seReg x y) := statement_of (mask_op_n _ x y _)
theorem ldImm (x : Nibble) (nn : Byte) : Statement (.ldImm x nn) := statement_of (mask_op_imm _ x nn)
theorem addImm (x : Nibble) (nn : Byte) : Statement (.addImm x nn) := statement_of (mask_op_imm _ x nn)
theorem ldReg (x y : Nibble) : Statement (.ldReg x y) := statement_of (mask_op_n _ x y _)
theorem orReg (x y : Nibble) : Statement (.orReg x y) := statement_of (mask_op_n _ x y _)
theorem andReg (x y : Nibble) : Statement (.andReg x y) := statement_of (mask_op_n _ x y _)
theorem xorReg (x y : Nibble) : Statement (.xorReg x y) := statement_of (mask_op_n _ x y _)
theorem addReg (x y : Nibble) : Statement (.addReg x y) := statement_of (mask_op_n _ x y _)
theorem subReg (x y : Nibble) : Statement (.subReg x y) := statement_of (mask_op_n _ x y _)
theorem shr (x y : Nibble) : Statement (.shr x y) := statement_of (mask_op_n _ x y _)
theorem subn (x y : Nibble) : Statement (.subn x y) := statement_of (mask_op_n _ x y _)
theorem shl (x y : Nibble) : Statement (.shl x y) := statement_of (mask_op_n _ x y _)
theorem sneReg (x y : Nibble) : Statement (.sneReg x y) := statement_of (mask_op_n _ x y _)
theorem ldI (nnn : Imm12) : Statement (.ldI nnn) := statement_of (mask_op _ nnn)
theorem jpV0 (nnn : Imm12) : Statement (.jpV0 nnn) := statement_of (mask_op _ nnn)
theorem rnd (x : Nibble) (nn : Byte) : Statement (.rnd x nn) := statement_of (mask_op_imm _ x nn)
theorem drw (x y n : Nibble) : Statement (.drw x y n) := statement_of (mask_op_draw _ x y n)
theorem skp (x : Nibble) : Statement (.skp x) := statement_of (mask_op_byte _ x _)
theorem sknp (x : Nibble) : Statement (.sknp x) := statement_of (mask_op_byte _ x _)
theorem ldVxDt (x : Nibble) : Statement (.ldVxDt x) := statement_of (mask_op_byte _ x _)
theorem ldVxK (x : Nibble) : Statement (.ldVxK x) := statement_of (mask_op_byte _ x _)
theorem ldDtVx (x : Nibble) : Statement (.ldDtVx x) := statement_of (mask_op_byte _ x _)
theorem ldStVx (x : Nibble) : Statement (.ldStVx x) := statement_of (mask_op_byte _ x _)
theorem addIVx (x : Nibble) : Statement (.addIVx x) := statement_of (mask_op_byte _ x _)
theorem ldFVx (x : Nibble) : Statement (.ldFVx x) := statement_of (mask_op_byte _ x _)
theorem ldBVx (x : Nibble) : Statement (.ldBVx x) := statement_of (mask_op_byte _ x _)
theorem ldMemVx (x : Nibble) : Statement (.ldMemVx x) := statement_of (mask_op_byte _ x _)
theorem ldVxMem (x : Nibble) : Statement (.ldVxMem x) := statement_of (mask_op_byte _ x _)

end Sys2Proof.Laws.OpcodeRow
end

