-- ==== Sys2Proof/Laws/Step.lean ====
section
/-!
SUPPORT. What an instruction and a step can do, said once: an instruction completes without touching the fault state, or
raises and does nothing else; a step is halted, or faults at the fetch, or runs the default arm, or runs the decoded
instruction.
-/

namespace Sys2Proof.Machine

/-- What a completed instruction has in common with every other: halt latch, fault record and key latches as they were,
the canonical form of memory kept. -/
def Completes (s t : State) : Prop :=
  t.halt = s.halt ∧ t.fault = s.fault ∧ t.key = s.key ∧ (s.mem.wf = true → t.mem.wf = true)

theorem Completes.of_eq {s t : State} (h : t.halt = s.halt) (f : t.fault = s.fault) (k : t.key = s.key)
    (m : t.mem = s.mem) : Completes s t := ⟨h, f, k, fun hw => m ▸ hw⟩

/-- Every instruction answers a next state: it completes, or it raises a fault and changes nothing else. -/
theorem exec_cases (i : Instr) (s : State) :
    ∃ t, exec i s = .next t ∧ (Completes s t ∨ ∃ c w, c ≠ FaultCause.none ∧ t = s.raise c w) := by
  cases i
  case ret =>
    simp only [exec, execRet]
    split
    · rename_i h
      obtain ⟨_, _, he, _⟩ := State.pop_cases h
      refine ⟨_, rfl, .inl (.of_eq ?_ ?_ ?_ ?_)⟩ <;> (rw [he]; rfl)
    · exact ⟨_, rfl, .inr ⟨_, _, by decide, rfl⟩⟩
  case call =>
    simp only [exec, execCall]
    split
    · rename_i h
      obtain ⟨_, _, he, _⟩ := State.push_cases h
      refine ⟨_, rfl, .inl (.of_eq ?_ ?_ ?_ ?_)⟩ <;> (rw [he]; rfl)
    · exact ⟨_, rfl, .inr ⟨_, _, by decide, rfl⟩⟩
  case ldBVx =>
    simp only [exec, execLdBVx]
    split
    · rename_i h; exact ⟨_, rfl, .inl ⟨rfl, rfl, rfl, writeSpan_wf h⟩⟩
    · exact ⟨_, rfl, .inr ⟨_, _, by decide, rfl⟩⟩
  case ldMemVx =>
    simp only [exec, execLdMemVx]
    split
    · rename_i h; exact ⟨_, rfl, .inl ⟨rfl, rfl, rfl, writeSpan_wf h⟩⟩
    · exact ⟨_, rfl, .inr ⟨_, _, by decide, rfl⟩⟩
  case ldVxMem =>
    simp only [exec, execLdVxMem]
    split
    · exact ⟨_, rfl, .inl (.of_eq rfl rfl rfl rfl)⟩
    · exact ⟨_, rfl, .inr ⟨_, _, by decide, rfl⟩⟩
  case drw =>
    simp only [exec, execDrw]
    split
    · exact ⟨_, rfl, .inl (.of_eq rfl rfl rfl rfl)⟩
    · exact ⟨_, rfl, .inr ⟨_, _, by decide, rfl⟩⟩
  case skp =>
    simp only [exec, execSkp]
    split
    · exact ⟨_, rfl, .inl (by apply Completes.of_eq <;> simp)⟩
    · exact ⟨_, rfl, .inr ⟨_, _, by decide, rfl⟩⟩
  case sknp =>
    simp only [exec, execSknp]
    split
    · exact ⟨_, rfl, .inl (by apply Completes.of_eq <;> simp)⟩
    · exact ⟨_, rfl, .inr ⟨_, _, by decide, rfl⟩⟩
  case ldVxK =>
    simp only [exec, execLdVxK]
    split <;> exact ⟨_, rfl, .inl (by apply Completes.of_eq <;> simp)⟩
  all_goals exact ⟨_, rfl, .inl (by apply Completes.of_eq <;> simp)⟩

/-- All a step can do (R90, R96). -/
theorem step_cases (s : State) :
    ∃ t, step s = .next t ∧
      ((s.halt = true ∧ t = s) ∨
       (s.halt = false ∧ s.fetch = none ∧ t = s.raise .fetchOutOfRange s.pc) ∨
       (s.halt = false ∧ ∃ w e, s.fetch = some w ∧ decodeWord w = .error e ∧ t = s.advance.tick) ∨
       (s.halt = false ∧ ∃ w i, s.fetch = some w ∧ decodeWord w = .ok i ∧
         ((∃ u, exec i s = .next u ∧ Completes s u ∧ t = u.tick) ∨
          (∃ c v, c ≠ FaultCause.none ∧ exec i s = .next (s.raise c v) ∧ t = s.raise c v)))) := by
  unfold step
  by_cases hh : s.halt = true
  · exact ⟨s, by rw [if_pos hh], .inl ⟨hh, rfl⟩⟩
  have hf : s.halt = false := by simpa using hh
  rw [if_neg hh]
  cases hw : s.fetch with
  | none => exact ⟨_, rfl, .inr (.inl ⟨hf, rfl, rfl⟩)⟩
  | some w =>
    cases hd : decodeWord w with
    | error e =>
      exact ⟨s.advance.tick, by simp [hd, execUnrecognized, hf], .inr (.inr (.inl ⟨hf, w, e, rfl, hd, rfl⟩))⟩
    | ok i =>
      obtain ⟨u, hu, hc⟩ := exec_cases i s
      rcases hc with hc | ⟨c, v, hne, rfl⟩
      · refine ⟨u.tick, ?_, .inr (.inr (.inr ⟨hf, w, i, rfl, hd, .inl ⟨u, hu, hc, rfl⟩⟩))⟩
        simp [hd, hu, hc.1, hf]
      · refine ⟨s.raise c v, ?_, .inr (.inr (.inr ⟨hf, w, i, rfl, hd, .inr ⟨c, v, hne, hu, rfl⟩⟩))⟩
        simp [hd, hu]

/-! ### The outcome of a step (R96), one lemma per case of `step_cases` -/

theorem stepOutcome_halted {s : State} (h : s.halt = true) (t : State) : stepOutcome s t = .halted := by
  simp [stepOutcome, h]

theorem stepOutcome_raise {s : State} (h : s.halt = false) (c : FaultCause) (w : Word) :
    stepOutcome s (s.raise c w) = .fault := by
  simp [stepOutcome, h]

theorem stepOutcome_unrecognized {s t : State} {w : Word} {e : DecodeReject} (h : s.halt = false) (ht : t.halt = false)
    (hf : s.fetch = some w) (hd : decodeWord w = .error e) : stepOutcome s t = .doneUnrecognized w s.pc := by
  simp [stepOutcome, h, ht, hf, hd]

theorem stepOutcome_ran {s t : State} {w : Word} {i : Instr} (h : s.halt = false) (ht : t.halt = false)
    (hf : s.fetch = some w) (hd : decodeWord w = .ok i) :
    stepOutcome s t = if s.waitsOn i then .doneWaiting else .done := by
  simp [stepOutcome, h, ht, hf, hd]

/-- An instruction waits exactly when it is an Fx0A and no key latch is 1 (R152). -/
theorem State.waitsOn_iff {s : State} {i : Instr} :
    s.waitsOn i = true ↔ (∃ x, i = .ldVxK x) ∧ ∀ k : Fin 16, s.key[k.val] = false := by
  have hk : s.keyScan.isNone = true ↔ ∀ k : Fin 16, s.key[k.val] = false := by
    rw [Option.isNone_iff_eq_none, State.keyScan_eq_none]
    exact ⟨fun h k => by simpa [Nat.mod_eq_of_lt k.isLt] using h (BitVec.ofNat 4 k.val), fun h k => h ⟨k.toNat, k.isLt⟩⟩
  unfold State.waitsOn
  split
  · simp [hk]
  · rename_i hn
    simp only [Bool.false_eq_true, false_iff, not_and]
    rintro ⟨x, rfl⟩
    exact absurd rfl (hn x)

/-- A waiting instruction leaves the state as it was (R152). -/
theorem exec_of_waitsOn {s : State} {i : Instr} (h : s.waitsOn i = true) : exec i s = .next s := by
  unfold State.waitsOn at h
  split at h
  · simp only [exec, execLdVxK, Option.isNone_iff_eq_none.1 h, State.advance_back]
  · cases h

end Sys2Proof.Machine
end

