-- ==== Sys2Proof/Tests/Slice0.lean ====
section
/-!
SUPPORT. Tests. Expected results come from spec/95_test_vectors.md (the id stands in each comment), from the encodings of
spec/30_encoding.md R74 written out by hand, and from the rules named. The theorems `test_meets_…` show states and operands
that meet the hypotheses of the obligation they are named after.
-/

namespace Sys2Proof.Tests

open Sys2Proof.Machine

/-! ### Well-formed words: the check refuses an ill-formed word of each part of R75 and accepts its neighbour -/

theorem test_recognized_0nnn : recognized 0x0000 = false ∧ recognized 0x00E0 = true := by decide
theorem test_recognized_0nnn_exact : recognized 0x01E0 = false ∧ recognized 0x00EE = true := by decide
theorem test_recognized_5xyn : recognized 0x5AB1 = false ∧ recognized 0x5AB0 = true := by decide
theorem test_recognized_8xyn : recognized 0x8008 = false ∧ recognized 0x8007 = true := by decide
theorem test_recognized_8xyF : recognized 0x800F = false ∧ recognized 0x800E = true := by decide
theorem test_recognized_9xyn : recognized 0x9001 = false ∧ recognized 0x9000 = true := by decide
theorem test_recognized_Exnn : recognized 0xE09F = false ∧ recognized 0xE09E = true := by decide
theorem test_recognized_Fxnn : recognized 0xF0FF = false ∧ recognized 0xF065 = true := by decide

/-! ### Decoding: one word for each row of R74, written out from its pattern -/

theorem test_decode_cls : decodeWord 0x00E0 = .ok (.cls) := by decide
theorem test_decode_ret : decodeWord 0x00EE = .ok (.ret) := by decide
theorem test_decode_jp : decodeWord 0x1A2A = .ok (.jp 0xA2A) := by decide
theorem test_decode_call : decodeWord 0x2300 = .ok (.call 0x300) := by decide
theorem test_decode_seImm : decodeWord 0x332A = .ok (.seImm 0x3 0x2A) := by decide
theorem test_decode_sneImm : decodeWord 0x432A = .ok (.sneImm 0x3 0x2A) := by decide
theorem test_decode_seReg : decodeWord 0x5120 = .ok (.seReg 0x1 0x2) := by decide
theorem test_decode_ldImm : decodeWord 0x6A05 = .ok (.ldImm 0xA 0x05) := by decide
theorem test_decode_addImm : decodeWord 0x7102 = .ok (.addImm 0x1 0x02) := by decide
theorem test_decode_ldReg : decodeWord 0x8120 = .ok (.ldReg 0x1 0x2) := by decide
theorem test_decode_orReg : decodeWord 0x8121 = .ok (.orReg 0x1 0x2) := by decide
theorem test_decode_andReg : decodeWord 0x8122 = .ok (.andReg 0x1 0x2) := by decide
theorem test_decode_xorReg : decodeWord 0x8123 = .ok (.xorReg 0x1 0x2) := by decide
theorem test_decode_addReg : decodeWord 0x8124 = .ok (.addReg 0x1 0x2) := by decide
theorem test_decode_subReg : decodeWord 0x8125 = .ok (.subReg 0x1 0x2) := by decide
theorem test_decode_shr : decodeWord 0x8126 = .ok (.shr 0x1 0x2) := by decide
theorem test_decode_subn : decodeWord 0x8127 = .ok (.subn 0x1 0x2) := by decide
theorem test_decode_shl : decodeWord 0x812E = .ok (.shl 0x1 0x2) := by decide
theorem test_decode_sneReg : decodeWord 0x9120 = .ok (.sneReg 0x1 0x2) := by decide
theorem test_decode_ldI : decodeWord 0xA2F0 = .ok (.ldI 0x2F0) := by decide
theorem test_decode_jpV0 : decodeWord 0xB301 = .ok (.jpV0 0x301) := by decide
theorem test_decode_rnd : decodeWord 0xC30F = .ok (.rnd 0x3 0x0F) := by decide
theorem test_decode_drw : decodeWord 0xD125 = .ok (.drw 0x1 0x2 0x5) := by decide
theorem test_decode_skp : decodeWord 0xE29E = .ok (.skp 0x2) := by decide
theorem test_decode_sknp : decodeWord 0xE2A1 = .ok (.sknp 0x2) := by decide
theorem test_decode_ldVxDt : decodeWord 0xF407 = .ok (.ldVxDt 0x4) := by decide
theorem test_decode_ldVxK : decodeWord 0xF50A = .ok (.ldVxK 0x5) := by decide
theorem test_decode_ldDtVx : decodeWord 0xF415 = .ok (.ldDtVx 0x4) := by decide
theorem test_decode_ldStVx : decodeWord 0xF518 = .ok (.ldStVx 0x5) := by decide
theorem test_decode_addIVx : decodeWord 0xF21E = .ok (.addIVx 0x2) := by decide
theorem test_decode_ldFVx : decodeWord 0xF129 = .ok (.ldFVx 0x1) := by decide
theorem test_decode_ldBVx : decodeWord 0xF333 = .ok (.ldBVx 0x3) := by decide
theorem test_decode_ldMemVx : decodeWord 0xF255 = .ok (.ldMemVx 0x2) := by decide
theorem test_decode_ldVxMem : decodeWord 0xF165 = .ok (.ldVxMem 0x1) := by decide

/-- The names the decoder rejects by (R75), and bytes that hold no word (R70). -/
theorem test_decode_rejects :
    [decodeWord 0x0123, decodeWord 0x5AB1, decodeWord 0x800F, decodeWord 0x9001, decodeWord 0xE09F, decodeWord 0xF0FF] =
      [.error .unrecognized0nnn, .error .unrecognized5xyn, .error .unrecognized8xyn, .error .unrecognized9xyn,
        .error .unrecognizedExnn, .error .unrecognizedFxnn] ∧
    decodeBytes [0x6A] = .error .tooShort := by decide

/-- Big-endian: 0x6A05 stands in memory as 0x6A, then 0x05 (R51). -/
theorem test_decode_bytes : decodeBytes [0x6A, 0x05, 0xFF] = .ok (.ldImm 0xA 0x05, [0xFF]) := by decide

theorem test_encode_bytes : encodeBytes (.drw 0xD 0x1 0x5) = [0xDD, 0x15] := by decide

theorem test_table_word : decodeTableWord 16 0x8124 = some (.addReg 0x1 0x2) ∧ decodeTableWord 16 0x5AB1 = none := by decide

/-! ### Small states and one step of them -/

/-- The next state of an outcome, if it is one. -/
def after (o : Host.Outcome State Fault Refusal) : Option State :=
  match o with
  | .next t => some t
  | _       => none

/-- The reset state with some registers set. -/
def withRegs (l : List (Nibble × Byte)) : State := l.foldl (fun s p => s.setReg p.1 p.2) State.reset

/-- The state after one step that fetches the word `w` at the pc of `s`. -/
def run (w : Nat) (s : State) : Option State := after (step (s.withFetchWord 16 w))

/-- The state with a byte of memory set. -/
def withByte (s : State) (a : Nat) (b : Byte) : State := { s with mem := s.mem.poke a b }

/-- The columns of row `r` that are on. -/
def columnsOn (s : State) (r : Fin 32) : List Nat :=
  (List.range 64).filter fun c => s.fb.pixel r (Fin.ofNat 64 c)

/-- `V[k] = 0x10 + k` for all `k` (the start of D-M16 to D-M18). -/
def counting : State := { State.reset with
  v := #v[0x10, 0x11, 0x12, 0x13, 0x14, 0x15, 0x16, 0x17, 0x18, 0x19, 0x1A, 0x1B, 0x1C, 0x1D, 0x1E, 0x1F] }

/-- The reset state with two keys down. -/
def keysDown (j k : Nibble) : State := (State.reset.keySet j true).keySet k true

/-- The reset state with the pixel at row 0, column 0 on. -/
def cornerOn : State := { State.reset with fb := State.reset.fb.toggle 0 0 }

/-! ### Step and default arm (40_step_cycle.md) -/

/-- D-S2. -/
theorem test_unrecognized :
    (run 0x5AB1 { State.reset with dt := 3 }).map (fun t => (t.pc, t.dt, t.halt, t.v)) = some (0x202, 2, false, State.reset.v) := by decide

/-- D-S5. -/
theorem test_fetch_past_memory :
    (after (step { State.reset with pc := 4095 })).map (fun t => (t.halt, t.fault, t.pc)) = some (true, ⟨.fetchOutOfRange, 0x0FFF, 0x0FFF⟩, 0x0FFF) := by decide

/-- D-S7. -/
theorem test_halted_step :
    after (step { State.reset with halt := true, dt := 3 }) = some { State.reset with halt := true, dt := 3 } := by decide

/-! ### Control transfer (41_flow.md) -/

/-- D-F1. -/
theorem test_jp :
    (run 0x1A2A State.reset).map (fun t => (t.pc, t.sp)) = some (0x0A2A, 0) := by decide

/-- D-F4. -/
theorem test_call_last_slot :
    (run 0x2300 { State.reset with sp := 15 }).map (fun t => (t.pc, t.sp, t.stack[15])) = some (0x300, 16, 0x0202) := by decide

/-- D-F5. -/
theorem test_call_overflow :
    (run 0x2300 { State.reset with sp := 16 }).map (fun t => (t.halt, t.fault, t.pc, t.sp)) = some (true, ⟨.stackOverflow, 0x0200, 16⟩, 0x200, 16) := by decide

/-- D-F7. -/
theorem test_ret :
    (run 0x00EE { State.reset with sp := 1, stack := State.reset.stack.set 0 0x0204, pc := 0x300 }).map (fun t => (t.pc, t.sp, t.stack[0])) = some (0x0204, 0, 0x0204) := by decide

/-- D-F6. -/
theorem test_ret_underflow :
    (run 0x00EE State.reset).map (fun t => (t.halt, t.fault, t.pc)) = some (true, ⟨.stackUnderflow, 0x0200, 0⟩, 0x200) := by decide

/-- D-F8. -/
theorem test_seImm_taken :
    (run 0x332A (withRegs [(3, 0x2A)])).map (fun t => (t.pc)) = some (0x204) := by decide

/-- D-F9. -/
theorem test_seImm_not_taken :
    (run 0x332A (withRegs [(3, 0x2B)])).map (fun t => (t.pc)) = some (0x202) := by decide

/-- D-F10. -/
theorem test_sneImm_not_taken :
    (run 0x432A (withRegs [(3, 0x2A)])).map (fun t => (t.pc)) = some (0x202) := by decide

/-- D-F11. -/
theorem test_sneImm_taken :
    (run 0x432A State.reset).map (fun t => (t.pc)) = some (0x204) := by decide

/-- D-F12. -/
theorem test_seReg_same :
    (run 0x5110 (withRegs [(1, 9)])).map (fun t => (t.pc)) = some (0x204) := by decide

/-- D-F13. -/
theorem test_seReg_not_taken :
    (run 0x5120 (withRegs [(1, 7), (2, 8)])).map (fun t => (t.pc)) = some (0x202) := by decide

/-- D-F14. -/
theorem test_sneReg_same :
    (run 0x9110 (withRegs [(1, 9)])).map (fun t => (t.pc)) = some (0x202) := by decide

/-- D-F15. -/
theorem test_sneReg_taken :
    (run 0x9120 (withRegs [(1, 7), (2, 8)])).map (fun t => (t.pc)) = some (0x204) := by decide

/-- D-F17. -/
theorem test_jpV0 :
    (run 0xB300 (withRegs [(0, 4)])).map (fun t => (t.pc)) = some (0x0304) := by decide

/-- D-F18. -/
theorem test_jpV0_past_memory :
    (run 0xBFFF (withRegs [(0, 0xFF)])).map (fun t => (t.pc, t.halt)) = some (0x10FE, false) := by decide

/-! ### Register load and arithmetic (42_alu.md) -/

/-- D-A1. -/
theorem test_ldImm :
    (run 0x6A05 State.reset).map (fun t => (t.reg 10, t.pc)) = some (5, 0x202) := by decide

/-- D-A2. -/
theorem test_ldImm_vf :
    (run 0x6F00 (withRegs [(15, 1)])).map (fun t => (t.reg 15, t.pc)) = some (0, 0x202) := by decide

/-- D-A3. -/
theorem test_addImm_wraps :
    (run 0x7102 (withRegs [(1, 255), (15, 7)])).map (fun t => (t.reg 1, t.reg 15, t.pc)) = some (1, 7, 0x202) := by decide

/-- D-A4. -/
theorem test_addImm_minus_one :
    (run 0x71FF (withRegs [(1, 5)])).map (fun t => (t.reg 1, t.pc)) = some (4, 0x202) := by decide

/-- D-A5. -/
theorem test_ldReg :
    (run 0x8120 (withRegs [(2, 0x33)])).map (fun t => (t.reg 1, t.reg 2, t.pc)) = some (0x33, 0x33, 0x202) := by decide

/-- D-A6. -/
theorem test_orReg :
    (run 0x8121 (withRegs [(1, 0xF0), (2, 0x0F), (15, 9)])).map (fun t => (t.reg 1, t.reg 15, t.pc)) = some (0xFF, 9, 0x202) := by decide

/-- D-A7. -/
theorem test_andReg :
    (run 0x8122 (withRegs [(1, 0xF0), (2, 0x3C), (15, 9)])).map (fun t => (t.reg 1, t.reg 15, t.pc)) = some (0x30, 9, 0x202) := by decide

/-- D-A8. -/
theorem test_xorReg :
    (run 0x8123 (withRegs [(1, 0xF0), (2, 0x3C), (15, 9)])).map (fun t => (t.reg 1, t.reg 15, t.pc)) = some (0xCC, 9, 0x202) := by decide

/-- D-A10. -/
theorem test_addReg_carry :
    (run 0x8124 (withRegs [(1, 200), (2, 100)])).map (fun t => (t.reg 1, t.reg 15, t.pc)) = some (0x2C, 1, 0x202) := by decide

/-- D-A14. -/
theorem test_addReg_flag_wins :
    (run 0x8F24 (withRegs [(15, 200), (2, 100)])).map (fun t => (t.reg 15, t.reg 2, t.pc)) = some (1, 100, 0x202) := by decide

/-- D-A17. -/
theorem test_subReg_borrow :
    (run 0x8125 (withRegs [(1, 5), (2, 10), (15, 1)])).map (fun t => (t.reg 1, t.reg 15, t.pc)) = some (0xFB, 0, 0x202) := by decide

/-- D-A19. -/
theorem test_subReg_equal :
    (run 0x8125 (withRegs [(1, 7), (2, 7)])).map (fun t => (t.reg 1, t.reg 15, t.pc)) = some (0, 1, 0x202) := by decide

/-- D-A25. -/
theorem test_shr :
    (run 0x8126 (withRegs [(1, 0xFF), (2, 0x10)])).map (fun t => (t.reg 1, t.reg 2, t.reg 15, t.pc)) = some (0x7F, 0x10, 1, 0x202) := by decide

/-- D-A27. -/
theorem test_shr_flag_wins :
    (run 0x8F06 (withRegs [(15, 2)])).map (fun t => (t.reg 15, t.pc)) = some (0, 0x202) := by decide

/-- D-A28. -/
theorem test_subn :
    (run 0x8127 (withRegs [(1, 5), (2, 10)])).map (fun t => (t.reg 1, t.reg 2, t.reg 15, t.pc)) = some (5, 10, 1, 0x202) := by decide

/-- D-A29. -/
theorem test_subn_borrow :
    (run 0x8127 (withRegs [(1, 10), (2, 5), (15, 1)])).map (fun t => (t.reg 1, t.reg 15, t.pc)) = some (0xFB, 0, 0x202) := by decide

/-- D-A31. -/
theorem test_shl :
    (run 0x810E (withRegs [(1, 0x81)])).map (fun t => (t.reg 1, t.reg 15, t.pc)) = some (2, 1, 0x202) := by decide

/-- D-A35. -/
theorem test_shl_flag_wins :
    (run 0x8F0E (withRegs [(15, 0x40)])).map (fun t => (t.reg 15, t.pc)) = some (0, 0x202) := by decide

/-! ### Index register and memory (43_index_memory.md) -/

/-- D-M1. -/
theorem test_ldI :
    (run 0xA2F0 State.reset).map (fun t => (t.i, t.pc)) = some (0x02F0, 0x202) := by decide

/-- D-M3. -/
theorem test_addIVx_past_memory :
    (run 0xF11E { withRegs [(1, 1), (15, 7)] with i := 0x0FFF }).map (fun t => (t.i, t.reg 15)) = some (0x1000, 7) := by decide

/-- D-M4. -/
theorem test_addIVx_wraps :
    (run 0xF11E { withRegs [(1, 1), (15, 7)] with i := 0xFFFF }).map (fun t => (t.i, t.reg 15)) = some (0, 7) := by decide

/-- D-M6. -/
theorem test_ldFVx :
    (run 0xF129 (withRegs [(1, 0x0F)])).map (fun t => (t.i)) = some (0x004B) := by decide

/-- D-M7. -/
theorem test_ldFVx_above_15 :
    (run 0xF129 (withRegs [(1, 0xFF)])).map (fun t => (t.i)) = some (0x04FB) := by decide

/-- D-M13. -/
theorem test_ldBVx_top_of_memory :
    (run 0xF133 { withRegs [(1, 123)] with i := 4093 }).map (fun t => (t.mem.peek 4093, t.mem.peek 4094, t.mem.peek 4095, t.i)) = some (1, 2, 3, 4093) := by decide

/-- D-M14. -/
theorem test_ldBVx_out_of_range :
    (run 0xF133 { withRegs [(1, 123)] with i := 4094 }).map (fun t => (t.halt, t.fault, t.pc, t.mem.peek 4094, t.mem.peek 4095)) = some (true, ⟨.dataOutOfRange, 0x0200, 4096⟩, 0x200, 0, 0) := by decide

/-- D-M17. -/
theorem test_ldMemVx_all :
    (run 0xFF55 { counting with i := 4080 }).map (fun t => (t.mem.peek 4080, t.mem.peek 4095, t.mem.peek 4079, t.i)) = some (0x10, 0x1F, 0, 0x1000) := by decide

/-- D-M18. -/
theorem test_ldMemVx_out_of_range :
    (run 0xFF55 { counting with i := 4081 }).map (fun t => (t.halt, t.fault, t.pc, t.mem.peek 4081, t.i)) = some (true, ⟨.dataOutOfRange, 0x0200, 4096⟩, 0x200, 0, 4081) := by decide

/-- The example of R135. -/
theorem test_ldVxMem :
    (run 0xF165 { withByte (withByte (withRegs [(2, 9)]) 0x400 0xAA) 0x401 0xBB with i := 0x400 }).map (fun t => (t.reg 0, t.reg 1, t.reg 2, t.i)) = some (0xAA, 0xBB, 9, 0x402) := by decide

/-- D-M22. -/
theorem test_ldVxMem_out_of_range :
    (run 0xF165 { withRegs [(0, 7)] with i := 4095 }).map (fun t => (t.halt, t.fault, t.pc, t.reg 0, t.i)) = some (true, ⟨.dataOutOfRange, 0x0200, 4096⟩, 0x200, 7, 4095) := by decide

/-! ### Display (44_display.md) -/

/-- D-D1. -/
theorem test_cls :
    (run 0x00E0 cornerOn).map (fun t => (t.fb, t.dirty)) = some (FrameBuffer.clear, true) := by decide

/-- D-D2. -/
theorem test_cls_already_clear :
    (run 0x00E0 State.reset).map (fun t => (t.fb, t.dirty)) = some (FrameBuffer.clear, true) := by decide

/-- D-D7. -/
theorem test_drw_wraps :
    (run 0xD121 { withByte (withRegs [(1, 70), (2, 40)]) 0x300 0xFF with i := 0x300 }).map (fun t => (columnsOn t 8, t.reg 15, t.dirty)) = some ([6, 7, 8, 9, 10, 11, 12, 13], 0, true) := by decide

/-- D-D4. -/
theorem test_drw_collides :
    (run 0xD011 { withByte cornerOn 0x300 0x80 with i := 0x300 }).map (fun t => (t.fb, t.reg 15)) = some (FrameBuffer.clear, 1) := by decide

/-! ### Keypad, random, timer (45_keypad_timer_random.md) -/

/-- D-K1. -/
theorem test_skp_down :
    (run 0xE29E { withRegs [(2, 5)] with key := (State.reset.keySet 5 true).key }).map (fun t => (t.pc)) = some (0x204) := by decide

/-- D-K5. -/
theorem test_skp_no_such_key :
    (run 0xE29E (withRegs [(2, 16)])).map (fun t => (t.halt, t.fault, t.pc)) = some (true, ⟨.keyIndexOutOfRange, 0x0200, 16⟩, 0x200) := by decide

/-- D-K3. -/
theorem test_sknp_down :
    (run 0xE2A1 { withRegs [(2, 5)] with key := (State.reset.keySet 5 true).key }).map (fun t => (t.pc)) = some (0x202) := by decide

/-- D-K6. -/
theorem test_sknp_no_such_key :
    (run 0xE2A1 (withRegs [(2, 255)])).map (fun t => (t.halt, t.fault, t.pc)) = some (true, ⟨.keyIndexOutOfRange, 0x0200, 255⟩, 0x200) := by decide

/-- D-K7. -/
theorem test_ldVxK_least_key :
    (run 0xF50A { keysDown 3 9 with dt := 4 }).map (fun t => (t.reg 5, t.pc, t.dt)) = some (3, 0x202, 3) := by decide

/-- D-K8. -/
theorem test_ldVxK_waits :
    (run 0xF50A { withRegs [(5, 0x77)] with dt := 4 }).map (fun t => (t.reg 5, t.pc, t.dt)) = some (0x77, 0x200, 3) := by decide

/-- D-K9: the byte given as 0xB7. -/
theorem test_rnd_masks :
    (State.reset.maskRandom 0xB7 3 0x0F).reg 3 = 0x07 := by decide

/-- D-K10: with the mask 0 the byte does not matter. -/
theorem test_rnd_zero_mask : (after (exec (.rnd 3 0x00) (withRegs [(3, 9)]))).map (fun t => t.reg 3) = some 0 := by
  simp [exec, execRnd, after, State.reg, withRegs, State.reset]

/-- D-T1. -/
theorem test_ldVxDt :
    (run 0xF407 { State.reset with dt := 0x10 }).map (fun t => (t.reg 4, t.dt)) = some (0x10, 0x0F) := by decide

/-- D-T2. -/
theorem test_ldVxDt_zero :
    (run 0xF407 (withRegs [(4, 9)])).map (fun t => (t.reg 4, t.dt)) = some (0, 0) := by decide

/-- D-T3. -/
theorem test_ldDtVx_zero :
    (run 0xF415 { State.reset with dt := 9 }).map (fun t => (t.dt)) = some (0) := by decide

/-- D-T4. -/
theorem test_ldDtVx :
    (run 0xF415 (withRegs [(4, 255)])).map (fun t => (t.dt)) = some (254) := by decide

/-- D-T6. -/
theorem test_ldStVx :
    (run 0xF518 { withRegs [(5, 9)] with dt := 1 }).map (fun t => (t.pc, t.dt, t.v)) = some (0x202, 0, (withRegs [(5, 9)]).v) := by decide
/-! ### States and operands that meet the hypotheses of the obligations

One theorem per obligation that has hypotheses, each clause at the boundary of its range. -/

/-- A call in the last free slot, as the next instruction. -/
def callAtFifteen : State := { State.reset with sp := 15 }.withFetchWord 16 0x2300

/-- A state whose next instruction faults. -/
def faultNext : State := State.reset.withFetchWord 16 0x00EE

/-- A state that waits for a key. -/
def waitNext : State := { State.reset with dt := 4 }.withFetchWord 16 0xF50A

/-- A self-jump. -/
def selfJump : State := { State.reset with dt := 4 }.withFetchWord 16 0x1200

theorem test_meets_DecodedWordEncodesBack : ∃ i, decodeWord 0x8124 = .ok i := ⟨_, rfl⟩

theorem test_meets_NoWordMatchesTwoRows :
    (⟨"SHR_Vx", 0xF00F, 0x8006⟩ : OpcodeRow) ∈ opcodeTable ∧ OpcodeRow.matches ⟨"SHR_Vx", 0xF00F, 0x8006⟩ 0x8126 = true := by
  decide

theorem test_meets_ResetStateIsTheTable : 80 ≤ 80 ∧ 80 ≤ 4095 := by decide

theorem test_meets_StepKeepsInvariant :
    callAtFifteen.Inv ∧ faultNext.Inv ∧ waitNext.Inv ∧ (∃ t, step callAtFifteen = .next t) ∧
      (∃ t, step faultNext = .next t) ∧ ∃ t, step waitNext = .next t :=
  ⟨by decide, by decide, by decide, ⟨_, rfl⟩, ⟨_, rfl⟩, ⟨_, rfl⟩⟩

theorem test_meets_HostOperationsKeepInvariant :
    Block.fresh.state.Inv ∧ (∃ b r, hostOp (.load [0x12, 0x00]) Block.fresh = .next (b, r)) ∧
      ∃ b r, hostOp .step Block.fresh = .next (b, r) :=
  ⟨by decide, ⟨_, _, rfl⟩, ⟨_, _, rfl⟩⟩

theorem test_meets_CanonicalMemoriesAreEqual :
    (Memory.poke [] 0x300 5).wf = true ∧ ∀ a, (Memory.poke [] 0x300 5).peek a = (Memory.poke [] 0x300 5).peek a :=
  ⟨by decide, fun _ => rfl⟩

theorem test_meets_StepRunsDecodedInstruction :
    callAtFifteen.halt = false ∧ callAtFifteen.pc.toNat + 1 < 4096 ∧
      decodeBytes (callAtFifteen.mem.peek callAtFifteen.pc.toNat :: callAtFifteen.mem.peek (callAtFifteen.pc.toNat + 1) :: []) =
        .ok (.call 0x300, []) ∧ ∃ t, exec (.call 0x300) callAtFifteen = .next t :=
  ⟨by decide, by decide, by decide, ⟨_, rfl⟩⟩

theorem test_meets_UnrecognizedWordIsReportedAndIgnored :
    (State.reset.withFetchWord 16 0x5AB1).halt = false ∧ (State.reset.withFetchWord 16 0x5AB1).fetch = some 0x5AB1 ∧
      recognized 0x5AB1 = false := by decide

theorem test_meets_FetchReadsTwoBytes :
    State.fetch { State.reset with pc := 4094 } = some 0 ∧ State.fetch { State.reset with pc := 4095 } = none := by decide

theorem test_meets_FetchPastMemoryFaults :
    State.reset.halt = false ∧ 4095 ≤ (State.reset.setPc 4095).pc.toNat ∧ 4095 ≤ (State.reset.setPc 4096).pc.toNat := by
  decide

theorem test_meets_HaltIsSticky : (State.reset.raise .stackUnderflow 0).halt = true := by decide

/-- Each outcome of R96 occurs. -/
theorem test_meets_FiveOutcomesOfAStep :
    (after (step (State.reset.raise .stackUnderflow 0))).map (stepOutcome (State.reset.raise .stackUnderflow 0)) = some .halted ∧
    (after (step faultNext)).map (stepOutcome faultNext) = some .fault ∧
    (after (step waitNext)).map (stepOutcome waitNext) = some .doneWaiting ∧
    (after (step State.reset)).map (stepOutcome State.reset) = some (.doneUnrecognized 0 0x200) ∧
    (after (step selfJump)).map (stepOutcome selfJump) = some .done := by decide

/-- The waiting state of `test_meets_FiveOutcomesOfAStep` finds no key; the self-jump decodes and does not wait. -/
theorem test_meets_FiveOutcomesOfAStep_waiting : waitNext.FindsNoKey ∧ ¬ selfJump.FindsNoKey := by
  refine ⟨⟨⟨0xF50A, 5, by decide, by decide⟩, by decide⟩, ?_⟩
  rintro ⟨⟨w, x, hf, hd⟩, -⟩
  obtain rfl : w = 0x1200 := by simpa using hf.symm.trans (show selfJump.fetch = some 0x1200 by decide)
  exact absurd (hd.symm.trans (show decodeWord 0x1200 = .ok (.jp 0x200) by decide)) (by simp)

/-- The four signals of R182, one outcome each: waiting for the wait, fault with halted for a faulting step. -/
theorem test_step_signals :
    (after (step waitNext)).map (fun t => ((stepOutputs waitNext t).waiting, (stepOutputs waitNext t).halted)) =
      some (true, false) ∧
    (after (step faultNext)).map (fun t => ((stepOutputs faultNext t).fault, (stepOutputs faultNext t).halted)) =
      some (true, true) := by decide

/-- Each cause of R161 occurs from a state that is not halted. -/
theorem test_meets_FaultsArePreciseAndNamed :
    [after (step (State.reset.setPc 4095)), run 0x2300 { State.reset with sp := 16 }, run 0x00EE State.reset,
        run 0xF133 { State.reset with i := 4094 }, run 0xE29E (withRegs [(2, 16)])].map
      (fun t => t.map fun t => (t.halt, t.fault.cause.code)) =
      [some (true, 1), some (true, 2), some (true, 3), some (true, 4), some (true, 5)] := by decide

theorem test_meets_CompletedStepTicksTheTimer :
    selfJump.halt = false ∧ (after (step selfJump)).map (fun t => t.halt) = some false ∧
      (run 0xF415 (withRegs [(4, 255)])).map (fun t => t.halt) = some false := by decide

/-- Each part the statement names is changed by one of its writers. -/
theorem test_meets_EachPartHasItsWriters :
    (after (exec (.ldBVx 1) { withRegs [(1, 123)] with i := 0x300 })).map (fun t => decide (t.mem ≠ [])) = some true ∧
    (after (exec (.ldI 0x300) State.reset)).map (fun t => decide (t.i ≠ 0)) = some true ∧
    (after (exec (.call 0x300) State.reset)).map (fun t => decide (t.stack ≠ State.reset.stack ∧ t.sp ≠ 0)) = some true ∧
    (after (exec (.ldDtVx 4) (withRegs [(4, 255)]))).map (fun t => decide (t.dt ≠ 0)) = some true ∧
    (after (exec .cls cornerOn)).map (fun t => decide (t.fb ≠ cornerOn.fb ∧ t.dirty ≠ false)) = some true := by decide

theorem test_meets_OnlyDestinationRegistersChange :
    (∃ t, exec (.addReg 1 2) State.reset = .next t) ∧ ¬ mayWrite (.addReg 1 2) 2 := ⟨⟨_, rfl⟩, by simp [mayWrite]⟩

theorem test_meets_SpansAreAllOrNothing :
    State.reset.halt = false ∧ dataBytes (.drw 0 1 1) = 1 ∧
    (after (exec (.drw 0 1 1) { State.reset with i := 4095 })).map (fun t => t.halt) = some false ∧
    (after (exec (.drw 0 1 1) { State.reset with i := 4096 })).map (fun t => (t.halt, t.fault.cause)) =
      some (true, .dataOutOfRange) := by decide

theorem test_meets_DisplayIsReadOnlyByDraw :
    (∀ x y n, Instr.ldI 0x300 ≠ .drw x y n) ∧ ∃ t, exec (.ldI 0x300) cornerOn = .next t := ⟨by simp, ⟨_, rfl⟩⟩

theorem test_meets_DirtyFlagIsNeverRead : ∃ t, step selfJump = .next t := ⟨_, rfl⟩

theorem test_meets_KeysAreReadOnlyByThree :
    (∀ x, Instr.ldI 0x300 ≠ .skp x ∧ Instr.ldI 0x300 ≠ .sknp x ∧ Instr.ldI 0x300 ≠ .ldVxK x) ∧
      ∃ t, exec (.ldI 0x300) (keysDown 3 9) = .next t := ⟨by simp, ⟨_, rfl⟩⟩

theorem test_meets_CallPushesReturnAddress :
    State.reset.sp.val < 16 ∧ callAtFifteen.sp.val < 16 ∧ ({ State.reset with sp := 16 } : State).sp.val = 16 := by decide

theorem test_meets_ReturnPopsIntoPc :
    ({ State.reset with sp := 1 } : State).sp.val = (0 : Fin 16).val + 1 ∧
      ({ State.reset with sp := 16 } : State).sp.val = (15 : Fin 16).val + 1 ∧ State.reset.sp.val = 0 := by decide

/-- S6: the state after a call serves as the state of the return. -/
theorem test_meets_CallThenReturnComesBack :
    callAtFifteen.sp.val < 16 ∧ ∃ t u : State, exec (.call 0x300) callAtFifteen = .next t ∧ u.stack = t.stack ∧ u.sp = t.sp :=
  ⟨by decide, _, _, rfl, rfl, rfl⟩

theorem test_meets_SkipOnRegisters : (1 : Nibble) = 1 := rfl

theorem test_meets_AddSubtractShift : (14 : Nibble) ≠ 15 ∧ (0 : Nibble) ≠ 15 := by decide

theorem test_meets_BcdStoresThreeDigits :
    ({ State.reset with i := 4093 } : State).i.toNat + 2 < 4096 ∧ State.reset.mem.wf = true ∧
      4096 ≤ ({ State.reset with i := 4094 } : State).i.toNat + 2 := by decide

theorem test_meets_BlockStoreWritesRegisters :
    ({ counting with i := 4080 } : State).i.toNat + (15 : Nibble).toNat < 4096 ∧ counting.mem.wf = true ∧
      (15 : Nibble).toNat ≤ (15 : Nibble).toNat ∧ 4096 ≤ ({ counting with i := 4081 } : State).i.toNat + (15 : Nibble).toNat := by
  decide

theorem test_meets_BlockLoadReadsRegisters :
    ({ State.reset with i := 4095 } : State).i.toNat + (0 : Nibble).toNat < 4096 ∧
      4096 ≤ ({ State.reset with i := 4095 } : State).i.toNat + (1 : Nibble).toNat := by decide

theorem test_meets_BlockStoreThenLoadRestores :
    counting.mem.wf = true ∧ ({ counting with i := 4080 } : State).i.toNat + (15 : Nibble).toNat < 4096 ∧
      ∃ t u : State, exec (.ldMemVx 15) { counting with i := 4080 } = .next t ∧ u.mem = t.mem ∧ u.i = 4080 :=
  ⟨by decide, by decide, _, { counting with i := 4080, mem := _ }, rfl, rfl, rfl⟩

theorem test_meets_StoredWordIsFetched :
    1 ≤ (1 : Nibble).toNat ∧ ({ counting with i := 4094 } : State).i.toNat + (1 : Nibble).toNat < 4096 ∧
      ∃ t u : State, exec (.ldMemVx 1) { counting with i := 4094 } = .next t ∧ u.mem = t.mem ∧ u.pc = 4094 :=
  ⟨by decide, by decide, _, { counting with pc := 4094, mem := _ }, rfl, rfl, rfl⟩

theorem test_meets_DrawTogglesSpritePixels :
    (0 : Nibble).toNat = 0 ∧ ({ State.reset with i := 4095 } : State).i.toNat + (1 : Nibble).toNat - 1 < 4096 ∧
      ({ State.reset with i := 4081 } : State).i.toNat + (15 : Nibble).toNat - 1 < 4096 ∧
      (1 ≤ (1 : Nibble).toNat ∧ 4096 ≤ ({ State.reset with i := 4096 } : State).i.toNat + (1 : Nibble).toNat - 1) ∧
      (1 ≤ (2 : Nibble).toNat ∧ 4096 ≤ ({ State.reset with i := 4095 } : State).i.toNat + (2 : Nibble).toNat - 1) := by decide

/-- A sprite whose second byte lies at 4096: the draw faults with info 4096 and toggles nothing (R63, D5). -/
theorem test_draw_out_of_range :
    (after (exec (.drw 0 1 2) { State.reset with i := 4095 })).map (fun t => (t.halt, t.fault.info, t.dirty)) =
      some (true, 4096, false) := by decide

theorem test_meets_DrawingTwiceRestores :
    (List.replicate 15 (0x80 : Byte)).length ≤ 15 ∧ ([] : List Byte).length ≤ 15 := by decide

theorem test_meets_SkipOnKeyLevel :
    ((withRegs [(2, 15)]).reg 2).toNat = (15 : Fin 16).val ∧ 15 < ((withRegs [(2, 16)]).reg 2).toNat ∧
      (Instr.sknp 2 = .skp 2 ∨ Instr.sknp 2 = .sknp 2) := by decide

theorem test_meets_WaitForKeyStoresLeastKey :
    ((keysDown 3 9).key[(3 : Fin 16).val] = true ∧ ∀ j : Fin 16, j < 3 → (keysDown 3 9).key[j.val] = false) ∧
      (keysDown 15 15).key[(15 : Fin 16).val] = true ∧ (∀ j : Fin 16, j < 15 → (keysDown 15 15).key[j.val] = false) ∧
      ∀ k : Fin 16, State.reset.key[k.val] = false := by decide

theorem test_meets_TimerReadSetAndSoundNoOp : State.reset.halt = false := rfl

/-- D-T5, its last two steps. -/
def setThenRead : State := (withByte (withByte (withRegs [(0, 0x10)]) 0x202 0xF1) 0x203 0x07).withFetchWord 16 0xF015

theorem test_meets_TimerReadAfterSetLosesOne :
    setThenRead.halt = false ∧ setThenRead.fetch = some 0xF015 ∧ decodeWord 0xF015 = .ok (.ldDtVx 0) ∧
      decodeWord 0xF107 = .ok (.ldVxDt 1) ∧
      ∃ t u : State, step setThenRead = .next t ∧ t.fetch = some 0xF107 ∧ step t = .next u ∧ u.reg 1 = 0x0F :=
  ⟨by decide, by decide, by decide, by decide, _, _, rfl, by decide, rfl, by decide⟩

theorem test_meets_SelfJumpIsAnEnd : selfJump.WellEnded := ⟨by decide, 0x1200, by decide, by decide, by decide⟩

theorem test_meets_OnlyTheHostEndsAWait : waitNext.Waiting := ⟨by decide, by decide, 0xF50A, 5, by decide, by decide⟩

theorem test_meets_EmptyMachineRunsOffMemory : 0 < 1792 ∧ 1791 < 1792 := by decide

theorem test_meets_LoadCopiesTheProgram :
    State.reset.mem.wf = true ∧ 3583 < (List.replicate 3585 (0x12 : Byte)).length ∧ 0x200 + 3583 ≤ 4095 ∧
      0x1FF < 0x200 ∧ 0x200 + (List.replicate 2 (0x12 : Byte)).length ≤ 0x202 ∧ 4096 ≤ 4096 := by
  refine ⟨by decide, ?_, by decide, by decide, by decide, by decide⟩
  rw [List.length_replicate]; decide

/-- Another font stands at addresses 0 to 79 after the reset; address 80 reads 0 (R178, R190). -/
theorem test_reset_with_another_font :
    (match hostOp (.reset (Vector.replicate 80 7)) ⟨State.reset.raise .stackUnderflow 0, true⟩ with
      | .next (b, _) => some (b.state.mem.peek 0, b.state.mem.peek 79, b.state.mem.peek 80, b.state.halt)
      | _ => none) = some (7, 7, 0, false) := by decide

theorem test_meets_ResetIsTotal : (⟨fontTable.toArray, by decide⟩ : Vector Byte 80).toList = fontTable := by simp [Vector.toList]

/-! ### Host operations (60_exceptions.md R178) -/

/-- A load after the first step stops the model (R193). -/
theorem test_load_during_run : hostOp (.load [0x12, 0x00]) ⟨State.reset, true⟩ = .fault .loadDuringRun := rfl

/-- The bytes of a program stand at 0x200 upward (R193). -/
theorem test_load : (State.reset.load [0x12, 0x00, 0x34]).mem = [(0x200, 0x12), (0x202, 0x34)] := by decide

/-- The acknowledge clears the dirty flag and nothing else (R181). -/
theorem test_present_ack : hostOp .presentAck ⟨{ State.reset with dirty := true }, true⟩ = .next (⟨State.reset, true⟩, .nothing) :=
  rfl

end Sys2Proof.Tests
end

section
/-!
The fields of the big-endian word of two bytes (spec/30_encoding.md R71, spec/20_memory.md R51). Each is read off the value
`hi * 256 + lo` of the word and the bounds of its bytes.
-/

namespace Sys2Proof

theorem fieldOp_wordOfBytes (hi lo : Byte) : (fieldOp (wordOfBytes hi lo)).toNat = hi.toNat / 16 := by
  have := lo.isLt
  rw [fieldOp_toNat, wordOfBytes_toNat]; omega

theorem fieldX_wordOfBytes (hi lo : Byte) : (fieldX (wordOfBytes hi lo)).toNat = hi.toNat % 16 := by
  have := lo.isLt
  rw [fieldX_toNat, wordOfBytes_toNat]; omega

theorem fieldY_wordOfBytes (hi lo : Byte) : (fieldY (wordOfBytes hi lo)).toNat = lo.toNat / 16 := by
  have := lo.isLt
  rw [fieldY_toNat, wordOfBytes_toNat]; omega

theorem fieldN_wordOfBytes (hi lo : Byte) : (fieldN (wordOfBytes hi lo)).toNat = lo.toNat % 16 := by
  rw [fieldN_toNat, wordOfBytes_toNat]; omega

@[simp] theorem fieldNN_wordOfBytes (hi lo : Byte) : fieldNN (wordOfBytes hi lo) = lo := by
  have := lo.isLt
  apply BitVec.eq_of_toNat_eq
  rw [fieldNN_toNat, wordOfBytes_toNat]; omega

theorem fieldNNN_wordOfBytes (hi lo : Byte) :
    (fieldNNN (wordOfBytes hi lo)).toNat = hi.toNat % 16 * 256 + lo.toNat := by
  have := lo.isLt
  rw [fieldNNN_toNat, wordOfBytes_toNat]; omega

/-- Settles O7, field by field from the value of the word. -/
theorem fieldsOfTwoBytes : Obligations.FieldsOfTwoBytes := fun hi lo =>
  ⟨wordOfBytes_toNat hi lo, fieldOp_wordOfBytes hi lo, fieldX_wordOfBytes hi lo, fieldY_wordOfBytes hi lo,
    fieldN_wordOfBytes hi lo, fieldNN_wordOfBytes hi lo, fieldNNN_wordOfBytes hi lo⟩

end Sys2Proof
end

section
/-!
Control transfer without the stack (spec/41_flow.md): the jumps 1nnn and Bnnn and the skips 3xnn, 4xnn, 5xy0, 9xy0. Each of
them is one write of the pc, so that the frame "everything but the pc" is proved once, for `setPc`.
-/

namespace Sys2Proof

/-! ### The encodings (spec/30_encoding.md R72, R73) -/

theorem decodeWord_encodeA_jp (nnn : Imm12) : decodeWord (encodeA 0x1 nnn) = .ok (.jp nnn) := by
  simp [decodeWord]

theorem decodeWord_encodeA_jpV0 (nnn : Imm12) : decodeWord (encodeA 0xB nnn) = .ok (.jpV0 nnn) := by
  simp [decodeWord]

theorem decodeWord_encodeI_seImm (x : Nibble) (nn : Byte) : decodeWord (encodeI 0x3 x nn) = .ok (.seImm x nn) := by
  simp [decodeWord]

theorem decodeWord_encodeI_sneImm (x : Nibble) (nn : Byte) : decodeWord (encodeI 0x4 x nn) = .ok (.sneImm x nn) := by
  simp [decodeWord]

/-- The digit 0 of the pattern 5xy0 is compared, not ignored (R75). -/
theorem decodeWord_encodeR_5 (x y n : Nibble) :
    decodeWord (encodeR 0x5 x y n) = if n = 0 then .ok (.seReg x y) else .error .unrecognized5xyn := by
  simp [decodeWord]

/-- The digit 0 of the pattern 9xy0 is compared, not ignored (R75). -/
theorem decodeWord_encodeR_9 (x y n : Nibble) :
    decodeWord (encodeR 0x9 x y n) = if n = 0 then .ok (.sneReg x y) else .error .unrecognized9xyn := by
  simp [decodeWord]

namespace Machine

/-! ### Operands as numbers (R77) -/

@[simp] theorem immWord_toNat (nnn : Imm12) : (immWord nnn).toNat = nnn.toNat :=
  BitVec.toNat_setWidth_of_le (by decide)

@[simp] theorem byteWord_toNat (b : Byte) : (byteWord b).toNat = b.toNat :=
  BitVec.toNat_setWidth_of_le (by decide)

/-- The target of Bnnn fits in 16 bits: at most 0xFFF + 0xFF (R108). -/
theorem immWord_add_byteWord_toNat (nnn : Imm12) (b : Byte) :
    (immWord nnn + byteWord b).toNat = nnn.toNat + b.toNat := by
  have := nnn.isLt
  have := b.isLt
  rw [BitVec.toNat_add, immWord_toNat, byteWord_toNat]; omega

/-! ### The frame and the target of a skip -/

theorem keepsAllButPc_setPc (s : State) (w : Word) : KeepsAllButPc s (s.setPc w) :=
  ⟨fun _ => rfl, rfl, ⟨rfl, rfl⟩, rfl, ⟨rfl, rfl⟩, ⟨rfl, rfl⟩, ⟨rfl, rfl⟩, fun _ => rfl⟩

/-- A skip is one write of the pc, to `a + 4` when its condition holds and to `a + 2` when not (spec/40_step_cycle.md
R92). -/
theorem State.skipIf_eq_setPc (s : State) (c : Bool) :
    s.skipIf c = s.setPc (if c then s.pc + 4 else s.pc + 2) := by
  cases c with
  | false => rfl
  | true =>
    have twice : s.pc + 2 + 2 = s.pc + 4 := by rw [BitVec.add_assoc]; rfl
    exact congrArg s.setPc twice

/-! ### The instructions -/

theorem exec_jp (nnn : Imm12) (s : State) : exec (.jp nnn) s = .next (s.setPc (immWord nnn)) := rfl

theorem exec_jpV0 (nnn : Imm12) (s : State) :
    exec (.jpV0 nnn) s = .next (s.setPc (immWord nnn + byteWord (s.reg 0))) := rfl

theorem exec_seImm (x : Nibble) (nn : Byte) (s : State) :
    exec (.seImm x nn) s = .next (s.setPc (if s.reg x = nn then s.pc + 4 else s.pc + 2)) := by
  simp [exec, execSeImm, State.skipIf_eq_setPc]

theorem exec_sneImm (x : Nibble) (nn : Byte) (s : State) :
    exec (.sneImm x nn) s = .next (s.setPc (if s.reg x = nn then s.pc + 2 else s.pc + 4)) := by
  simp [exec, execSneImm, State.skipIf_eq_setPc]

theorem exec_seReg (x y : Nibble) (s : State) :
    exec (.seReg x y) s = .next (s.setPc (if s.reg x = s.reg y then s.pc + 4 else s.pc + 2)) := by
  simp [exec, execSeReg, State.skipIf_eq_setPc]

theorem exec_sneReg (x y : Nibble) (s : State) :
    exec (.sneReg x y) s = .next (s.setPc (if s.reg x = s.reg y then s.pc + 2 else s.pc + 4)) := by
  simp [exec, execSneReg, State.skipIf_eq_setPc]

/-- Settles O27: the jump writes `nnn` to the pc. -/
theorem jumpSetsPc : Obligations.JumpSetsPc := fun s nnn =>
  ⟨decodeWord_encodeA_jp nnn, _, exec_jp nnn s, immWord_toNat nnn, keepsAllButPc_setPc s _⟩

/-- Settles O28: the 16-bit sum does not wrap. -/
theorem jumpWithOffsetAddsV0 : Obligations.JumpWithOffsetAddsV0 := fun s nnn =>
  ⟨decodeWord_encodeA_jpV0 nnn, _, exec_jpV0 nnn s, immWord_add_byteWord_toNat nnn (s.reg 0), keepsAllButPc_setPc s _⟩

/-- Settles O32: both skips are one write of the pc, the targets swapped. -/
theorem skipOnImmediate : Obligations.SkipOnImmediate := fun s x nn =>
  ⟨decodeWord_encodeI_seImm x nn, decodeWord_encodeI_sneImm x nn,
    ⟨_, exec_seImm x nn s, rfl, keepsAllButPc_setPc s _⟩,
    ⟨_, exec_sneImm x nn s, rfl, keepsAllButPc_setPc s _⟩⟩

/-- Settles O33: as for the immediates, and a register equals itself. -/
theorem skipOnRegisters : Obligations.SkipOnRegisters := fun s x y =>
  ⟨decodeWord_encodeR_5 x y, decodeWord_encodeR_9 x y,
    ⟨_, exec_seReg x y s, rfl, fun hxy => if_pos (congrArg s.reg hxy), keepsAllButPc_setPc s _⟩,
    ⟨_, exec_sneReg x y s, rfl, fun hxy => if_pos (congrArg s.reg hxy), keepsAllButPc_setPc s _⟩⟩

end Machine

end Sys2Proof
end

section
/-!
Register load and arithmetic without a flag (spec/42_alu.md): 6xnn, 7xnn and 8xy0 to 8xy3. Each of them is the advance and
one write of `V[x]`, so that what it leaves unchanged is proved once, for that pair of updates; `VF` is a register like the
others here (R111 to R116).
-/

namespace Sys2Proof

/-! ### The encodings (spec/30_encoding.md R72, R73) -/

theorem decodeWord_encodeI_ldImm (x : Nibble) (nn : Byte) : decodeWord (encodeI 0x6 x nn) = .ok (.ldImm x nn) := by
  simp [decodeWord]

theorem decodeWord_encodeI_addImm (x : Nibble) (nn : Byte) : decodeWord (encodeI 0x7 x nn) = .ok (.addImm x nn) := by
  simp [decodeWord]

/-- The patterns 8xyn are told apart by their last digit alone (R74). -/
theorem decodeWord_encodeR_8 (x y n : Nibble) : decodeWord (encodeR 0x8 x y n) = decode8 x y n := by
  simp [decodeWord]

namespace Machine

/-! ### One register write after the advance: the value and the frame -/

theorem reg_advance_setReg_self (s : State) (x : Nibble) (b : Byte) : (s.advance.setReg x b).reg x = b := by
  simp

theorem keepsRegsBut_advance_setReg (s : State) (x : Nibble) (b : Byte) :
    KeepsRegsBut (· = x) s (s.advance.setReg x b) := by
  intro r hr
  rw [State.reg_setReg, if_neg hr, State.reg_advance]

theorem keepsAllButRegs_advance_setReg (s : State) (x : Nibble) (b : Byte) :
    KeepsAllButRegs s (s.advance.setReg x b) :=
  ⟨rfl, ⟨rfl, rfl⟩, rfl, ⟨rfl, rfl⟩, ⟨rfl, rfl⟩, ⟨rfl, rfl⟩, fun _ => rfl⟩

/-- The frame of every instruction below. -/
theorem frame_advance_setReg (s : State) (x : Nibble) (b : Byte) :
    KeepsRegsBut (· = x) s (s.advance.setReg x b) ∧ KeepsAllButRegs s (s.advance.setReg x b) :=
  ⟨keepsRegsBut_advance_setReg s x b, keepsAllButRegs_advance_setReg s x b⟩

/-! ### The instructions -/

theorem exec_ldImm (x : Nibble) (nn : Byte) (s : State) :
    exec (.ldImm x nn) s = .next (s.advance.setReg x nn) := rfl

theorem exec_addImm (x : Nibble) (nn : Byte) (s : State) :
    exec (.addImm x nn) s = .next (s.advance.setReg x (s.reg x + nn)) := rfl

theorem exec_ldReg (x y : Nibble) (s : State) :
    exec (.ldReg x y) s = .next (s.advance.setReg x (s.reg y)) := rfl

theorem exec_orReg (x y : Nibble) (s : State) :
    exec (.orReg x y) s = .next (s.advance.setReg x (s.reg x ||| s.reg y)) := rfl

theorem exec_andReg (x y : Nibble) (s : State) :
    exec (.andReg x y) s = .next (s.advance.setReg x (s.reg x &&& s.reg y)) := rfl

theorem exec_xorReg (x y : Nibble) (s : State) :
    exec (.xorReg x y) s = .next (s.advance.setReg x (s.reg x ^^^ s.reg y)) := rfl

/-- Settles O34: one register write each, of `nn` and of the sum at width 8. -/
theorem immediateLoadAndAdd : Obligations.ImmediateLoadAndAdd := by
  intro s x nn
  refine ⟨decodeWord_encodeI_ldImm x nn, decodeWord_encodeI_addImm x nn,
    ⟨_, exec_ldImm x nn s, rfl, reg_advance_setReg_self s x _, frame_advance_setReg s x _⟩,
    ⟨_, exec_addImm x nn s, rfl, ?sum, frame_advance_setReg s x _⟩⟩
  case sum => rw [reg_advance_setReg_self, BitVec.toNat_add]

/-- Settles O35: one register write each, of the value `BitVec` gives bit by bit. -/
theorem copyAndLogic : Obligations.CopyAndLogic := by
  intro s x y
  refine ⟨decodeWord_encodeR_8 x y 0x0, decodeWord_encodeR_8 x y 0x1, decodeWord_encodeR_8 x y 0x2,
    decodeWord_encodeR_8 x y 0x3,
    ⟨_, exec_ldReg x y s, rfl, reg_advance_setReg_self s x _, frame_advance_setReg s x _⟩,
    ⟨_, exec_orReg x y s, rfl, fun k _ => ?or, frame_advance_setReg s x _⟩,
    ⟨_, exec_andReg x y s, rfl, fun k _ => ?and, frame_advance_setReg s x _⟩,
    ⟨_, exec_xorReg x y s, rfl, fun k _ => ?xor, frame_advance_setReg s x _⟩⟩
  case or => rw [reg_advance_setReg_self, BitVec.getLsbD_or]
  case and => rw [reg_advance_setReg_self, BitVec.getLsbD_and]
  case xor => rw [reg_advance_setReg_self, BitVec.getLsbD_xor]

end Machine

end Sys2Proof
end

section
/-!
The immediate load of the index register, Annn (spec/43_index_memory.md R130): the advance and one write of `I`. What such a
pair of updates leaves unchanged is proved once, for every value written.
-/

namespace Sys2Proof

theorem decodeWord_encodeA_ldI (nnn : Imm12) : decodeWord (encodeA 0xA nnn) = .ok (.ldI nnn) := by
  simp [decodeWord]

namespace Machine

/-- The frame of an instruction that advances and writes `I`: everything but `I` and the pc. -/
theorem frame_advance_setI (s : State) (w : Word) :
    KeepsRegs s (s.advance.setI w) ∧ KeepsStack s (s.advance.setI w) ∧ KeepsTimer s (s.advance.setI w) ∧
      KeepsDisplay s (s.advance.setI w) ∧ KeepsInputs s (s.advance.setI w) ∧ KeepsFault s (s.advance.setI w) ∧
      KeepsMemory s (s.advance.setI w) :=
  ⟨fun _ => rfl, ⟨rfl, rfl⟩, rfl, ⟨rfl, rfl⟩, ⟨rfl, rfl⟩, ⟨rfl, rfl⟩, fun _ => rfl⟩

theorem exec_ldI (nnn : Imm12) (s : State) : exec (.ldI nnn) s = .next (s.advance.setI (immWord nnn)) := rfl

/-- Settles O39: `I` receives `nnn` zero-extended. -/
theorem loadIndexImmediate : Obligations.LoadIndexImmediate := fun s nnn =>
  ⟨decodeWord_encodeA_ldI nnn, _, exec_ldI nnn s, rfl, immWord_toNat nnn, frame_advance_setI s _⟩

end Machine

end Sys2Proof
end

section
/-!
The clear of the display, 00E0 (spec/44_display.md R141): its single word, and the state it leaves.
-/

namespace Sys2Proof

/-! ### The encoding: the digit 0 leads to the comparison with the whole word, every other pattern to another instruction
(spec/30_encoding.md R74) -/

theorem decode8_ne_cls (x y n : Nibble) : decode8 x y n ≠ .ok .cls := by
  unfold decode8
  split <;> simp

theorem decodeE_ne_cls (x : Nibble) (nn : Byte) : decodeE x nn ≠ .ok .cls := by
  unfold decodeE
  split <;> simp

theorem decodeF_ne_cls (x : Nibble) (nn : Byte) : decodeF x nn ≠ .ok .cls := by
  unfold decodeF
  split <;> simp

/-- Row 1 of R74 is a single word. -/
theorem decodeWord_eq_cls_iff (w : Word) : decodeWord w = .ok .cls ↔ w = 0x00E0 := by
  constructor
  · intro h
    unfold decodeWord at h
    split at h
    case h_1 => simpa [ite_eq_iff] using h
    case h_9 => exact absurd h (decode8_ne_cls _ _ _)
    case h_15 => exact absurd h (decodeE_ne_cls _ _)
    case h_16 => exact absurd h (decodeF_ne_cls _ _)
    all_goals simp [ite_eq_iff] at h
  · rintro rfl
    rfl

namespace Machine

theorem exec_cls (s : State) :
    exec .cls s = .next { s.advance with fb := FrameBuffer.clear, dirty := true } := rfl

/-- Settles O47: the new display does not depend on the old one, and `VF` is among the registers kept. -/
theorem clearTurnsEveryPixelOff : Obligations.ClearTurnsEveryPixelOff :=
  ⟨fun w => (decodeWord_eq_cls_iff w).trans BitVec.toNat_inj.symm,
    fun s => ⟨_, exec_cls s, rfl, FrameBuffer.pixel_clear, rfl, fun _ => rfl, rfl, ⟨rfl, rfl⟩, rfl, ⟨rfl, rfl⟩,
      ⟨rfl, rfl⟩, fun _ => rfl⟩⟩

end Machine

end Sys2Proof
end

section
/-!
The delay timer's instructions Fx07, Fx15 and Fx18 (spec/45_keypad_timer_random.md R154 to R156), and the tick that ends
their step (spec/40_step_cycle.md R95): the tick acts on the timer as the instruction left it, and on nothing else.
-/

namespace Sys2Proof

/-- The patterns Fxnn are told apart by their low byte alone (R74). -/
theorem decodeWord_encodeI_F (x : Nibble) (nn : Byte) : decodeWord (encodeI 0xF x nn) = decodeF x nn := by
  simp [decodeWord]

namespace Machine

/-! ### The tick -/

/-- The stop at 0 is the one of the subtraction of naturals. -/
theorem State.tick_dt_toNat (s : State) : s.tick.dt.toNat = s.dt.toNat - 1 := by
  rw [State.tick_dt]
  split
  case isTrue zero => rw [zero]; rfl
  case isFalse => bv_omega

/-- An instruction that did not halt the block is followed by the tick. -/
theorem finishStep_of_running {o : Host.Outcome State Fault Refusal} {t : State} (ho : o = .next t)
    (h : t.halt = false) : finishStep o = .next t.tick := by
  rw [ho, finishStep_next, h]; rfl

/-! ### The instructions -/

theorem exec_ldVxDt (x : Nibble) (s : State) : exec (.ldVxDt x) s = .next (s.advance.setReg x s.dt) := rfl

theorem exec_ldDtVx (x : Nibble) (s : State) : exec (.ldDtVx x) s = .next { s.advance with dt := s.reg x } := rfl

theorem exec_ldStVx (x : Nibble) (s : State) : exec (.ldStVx x) s = .next (s.setPc (s.pc + 2)) := rfl

/-- The frame of an instruction that advances and writes `DT`: everything but `DT` and the pc. -/
theorem frame_advance_setDt {s t : State} {b : Byte} (h : t = { s.advance with dt := b }) :
    KeepsRegs s t ∧ KeepsIndex s t ∧ KeepsStack s t ∧ KeepsDisplay s t ∧ KeepsInputs s t ∧ KeepsFault s t ∧
      KeepsMemory s t := by
  subst h
  exact ⟨fun _ => rfl, rfl, ⟨rfl, rfl⟩, ⟨rfl, rfl⟩, ⟨rfl, rfl⟩, ⟨rfl, rfl⟩, fun _ => rfl⟩

/-- Settles O53: the tick keeps the register Fx07 wrote, and takes 1 off the timer, old or as Fx15 set it. -/
theorem timerReadSetAndSoundNoOp : Obligations.TimerReadSetAndSoundNoOp := by
  intro s x
  refine ⟨decodeWord_encodeI_F x 0x07, decodeWord_encodeI_F x 0x15, decodeWord_encodeI_F x 0x18,
    ⟨_, exec_ldVxDt x s, rfl, reg_advance_setReg_self s x _, frame_advance_setReg s x _⟩,
    ⟨_, exec_ldDtVx x s, rfl, rfl, frame_advance_setDt rfl⟩,
    ⟨_, exec_ldStVx x s, rfl, keepsAllButPc_setPc s _⟩,
    fun running => ⟨⟨_, finishStep_of_running (exec_ldVxDt x s) running, ?register, State.tick_dt_toNat _⟩,
      ⟨_, finishStep_of_running (exec_ldDtVx x s) running, State.tick_dt_toNat _⟩,
      ⟨_, finishStep_of_running (exec_ldStVx x s) running, State.tick_dt_toNat _⟩⟩⟩
  case register => rw [State.reg_tick, reg_advance_setReg_self]

end Machine

end Sys2Proof
end

section
/-!
The decoder and the encoder against each other and against the opcode table (spec/30_encoding.md R70 to R75). Both
directions between `decodeWord` and `encode` hold, and a row that matches a word is the row of the instruction the
word decodes to; the statements about the table follow from that one fact.
-/

namespace Sys2Proof

/-! ### Encode, then decode (R72, R73) -/

theorem decodeWord_encodeI_E (x : Nibble) (nn : Byte) : decodeWord (encodeI 0xE x nn) = decodeE x nn := by
  simp [decodeWord]

/-- Every instruction is what its word decodes to. -/
theorem decodeWord_encode (i : Instr) : decodeWord (encode i) = .ok i := by
  cases i with
  | cls => rfl
  | ret => rfl
  | ldReg x y | orReg x y | andReg x y | xorReg x y | addReg x y | subReg x y | shr x y | subn x y | shl x y =>
    exact decodeWord_encodeR_8 x y _
  | skp x | sknp x => exact decodeWord_encodeI_E x _
  | ldVxDt x | ldVxK x | ldDtVx x | ldStVx x | addIVx x | ldFVx x | ldBVx x | ldMemVx x | ldVxMem x =>
    exact decodeWord_encodeI_F x _
  | seReg x y => exact decodeWord_encodeR_5 x y 0
  | sneReg x y => exact decodeWord_encodeR_9 x y 0
  | _ => simp [encode, decodeWord]

/-- Settles O1: the two bytes give the word back, and the word its instruction. -/
theorem encodedInstructionDecodesBack : Obligations.EncodedInstructionDecodesBack := by
  intro i rest
  simp [encodeBytes, decodeBytes, decodeWord_encode]

/-! ### Decode, then encode (R71, R72) -/

theorem encode_of_decode8 {x y n : Nibble} {i : Instr} (h : decode8 x y n = .ok i) : encode i = encodeR 0x8 x y n := by
  unfold decode8 at h
  split at h
  case h_10 => cases h
  all_goals
    rename_i hn
    cases h
    rw [(BitVec.toNat_eq_nat.1 hn).2]
    rfl

theorem encode_of_decodeE {x : Nibble} {nn : Byte} {i : Instr} (h : decodeE x nn = .ok i) :
    encode i = encodeI 0xE x nn := by
  unfold decodeE at h
  split at h
  case h_3 => cases h
  all_goals
    rename_i hn
    cases h
    rw [(BitVec.toNat_eq_nat.1 hn).2]
    rfl

theorem encode_of_decodeF {x : Nibble} {nn : Byte} {i : Instr} (h : decodeF x nn = .ok i) :
    encode i = encodeI 0xF x nn := by
  unfold decodeF at h
  split at h
  case h_10 => cases h
  all_goals
    rename_i hn
    cases h
    rw [(BitVec.toNat_eq_nat.1 hn).2]
    rfl

/-- The sixteenth arm of the decoder is the digit F. -/
theorem fieldOp_eq_15 {w : Word} (h : ∀ k < 15, (fieldOp w).toNat ≠ k) : fieldOp w = 0xF := by
  have := (fieldOp w).isLt
  have := h (fieldOp w).toNat
  exact (BitVec.toNat_eq_nat.1 (show (fieldOp w).toNat = 15 by omega)).2

/-- Settles O2: the first digit picks the format, and a word is its format applied to its own fields. -/
theorem decodedWordEncodesBack : Obligations.DecodedWordEncodesBack := by
  intro w i h
  have hA := encodeA_fields w
  have hI := encodeI_fields w
  have hR := encodeR_fields w
  unfold decodeWord at h
  dsimp only at h
  split at h
  case h_16 =>
    rw [fieldOp_eq_15 (fun k hk => by interval_cases k <;> assumption)] at hI
    exact (encode_of_decodeF h).trans hI
  all_goals
    rename_i hop
    rw [(BitVec.toNat_eq_nat.1 hop).2] at hA hI hR
  case h_1 =>
    split_ifs at h with hcls hret
    · cases h; exact hcls.symm
    · cases h; exact hret.symm
  case h_6 | h_10 =>
    split_ifs at h with hn
    cases h; rw [hn] at hR; exact hR
  case h_9 => exact (encode_of_decode8 h).trans hR
  case h_15 => exact (encode_of_decodeE h).trans hI
  case h_14 => cases h; exact hR
  case h_2 | h_3 | h_11 | h_12 => cases h; exact hA
  case h_4 | h_5 | h_7 | h_8 | h_13 => cases h; exact hI

/-! ### The opcode table (R73, R74): the fields a mask fixes -/

theorem fieldOp_of_mask_op {w p : Word} (h : w &&& 0xF000 = p) : fieldOp w = p.extractLsb' 12 4 := by
  rw [← h, ← encodeA_fields w, Laws.OpcodeRow.mask_op, fieldOp_encodeA]
  exact (fieldOp_encodeA _ _).symm

theorem fields_of_mask_n {w p : Word} (h : w &&& 0xF00F = p) :
    fieldOp w = p.extractLsb' 12 4 ∧ fieldN w = p.extractLsb' 0 4 := by
  rw [← h, ← encodeR_fields w, Laws.OpcodeRow.mask_op_n, fieldOp_encodeR, fieldN_encodeR]
  exact ⟨(fieldOp_encodeR _ _ _ _).symm, (fieldN_encodeR _ _ _ _).symm⟩

theorem fields_of_mask_byte {w p : Word} (h : w &&& 0xF0FF = p) :
    fieldOp w = p.extractLsb' 12 4 ∧ fieldNN w = p.extractLsb' 0 8 := by
  rw [← h, ← encodeI_fields w, Laws.OpcodeRow.mask_op_byte, fieldOp_encodeI, fieldNN_encodeI]
  exact ⟨(fieldOp_encodeI _ _ _).symm, (fieldNN_encodeI _ _ _).symm⟩

/-! ### A row that matches a word is the row of the instruction the word decodes to -/

open Laws.OpcodeRow (rowOf)

/-- The word decodes to an instruction whose row is `r`. -/
def DecodesByRow (w : Word) (r : OpcodeRow) : Prop := ∃ i, decodeWord w = .ok i ∧ rowOf i = r

theorem decodesByRow_low {w : Word} : ∀ r ∈ opcodeRowsLow, w &&& r.mask = r.pattern → DecodesByRow w r := by
  simp only [opcodeRowsLow, List.forall_mem_cons]
  refine ⟨fun hw => ?_, fun hw => ?_, fun hw => ?_, fun hw => ?_, fun hw => ?_, fun hw => ?_, fun hw => ?_,
    fun hw => ?_, fun hw => ?_, by simp⟩
  case refine_1 => exact ⟨.cls, by rw [show w = 0x00E0 from BitVec.and_allOnes.symm.trans hw]; rfl, rfl⟩
  case refine_2 => exact ⟨.ret, by rw [show w = 0x00EE from BitVec.and_allOnes.symm.trans hw]; rfl, rfl⟩
  case refine_7 =>
    obtain ⟨hop, hn⟩ := fields_of_mask_n hw
    simp [DecodesByRow, decodeWord, hop, hn, rowOf]
  all_goals simp [DecodesByRow, decodeWord, fieldOp_of_mask_op hw, rowOf]

theorem decodesByRow_register {w : Word} :
    ∀ r ∈ opcodeRowsRegister, w &&& r.mask = r.pattern → DecodesByRow w r := by
  simp only [opcodeRowsRegister, List.forall_mem_cons]
  refine ⟨?_, ?_, ?_, ?_, ?_, ?_, ?_, ?_, ?_, ?_, by simp⟩
  all_goals
    intro hw
    obtain ⟨hop, hn⟩ := fields_of_mask_n hw
    simp [DecodesByRow, decodeWord, decode8, hop, hn, rowOf]

theorem decodesByRow_high {w : Word} : ∀ r ∈ opcodeRowsHigh, w &&& r.mask = r.pattern → DecodesByRow w r := by
  simp only [opcodeRowsHigh, List.forall_mem_cons]
  refine ⟨fun hw => ?op1, fun hw => ?op2, fun hw => ?op3, fun hw => ?op4, ?_, ?_, ?_, ?_, ?_, ?_, ?_, ?_, ?_, ?_, ?_,
    by simp⟩
  case op1 | op2 | op3 | op4 => simp [DecodesByRow, decodeWord, fieldOp_of_mask_op hw, rowOf]
  all_goals
    intro hw
    obtain ⟨hop, hnn⟩ := fields_of_mask_byte hw
    simp [DecodesByRow, decodeWord, decodeE, decodeF, hop, hnn, rowOf]

/-- The rows of the table, sub-table by sub-table. -/
theorem decodesByRow_of_matches {w : Word} {r : OpcodeRow} (hr : r ∈ opcodeTable) (hm : r.matches w = true) :
    DecodesByRow w r := by
  have hw : w &&& r.mask = r.pattern := beq_iff_eq.1 hm
  obtain h | h := List.mem_append.1 hr
  · obtain h | h := List.mem_append.1 h
    · exact decodesByRow_low r h hw
    · exact decodesByRow_register r h hw
  · exact decodesByRow_high r h hw

open Laws.OpcodeRow in
/-- An encoded instruction matches its own row: each format under the mask of its group. -/
theorem rowOf_matches_encode (i : Instr) : Statement i := by
  cases i with
  | cls | ret => exact statement_of rfl
  | jp nnn | call nnn | ldI nnn | jpV0 nnn => exact statement_of (mask_op _ nnn)
  | seImm x nn | sneImm x nn | ldImm x nn | addImm x nn | rnd x nn => exact statement_of (mask_op_imm _ x nn)
  | drw x y n => exact statement_of (mask_op_draw _ x y n)
  | seReg x y | sneReg x y | ldReg x y | orReg x y | andReg x y | xorReg x y | addReg x y | subReg x y | shr x y
  | subn x y | shl x y => exact statement_of (mask_op_n _ x y _)
  | skp x | sknp x | ldVxDt x | ldVxK x | ldDtVx x | ldStVx x | addIVx x | ldFVx x | ldBVx x | ldMemVx x
  | ldVxMem x => exact statement_of (mask_op_byte _ x _)

/-- Settles O3: the row of the decoded instruction matches, and a row that matches names an instruction. -/
theorem decoderAcceptsTableWords : Obligations.DecoderAcceptsTableWords := by
  intro w
  rw [recognized, List.any_eq_true]
  constructor
  · rintro ⟨i, hi⟩
    obtain ⟨hmem, hmatch⟩ := rowOf_matches_encode i
    exact ⟨rowOf i, hmem, decodedWordEncodesBack w i hi ▸ hmatch⟩
  · rintro ⟨r, hmem, hmatch⟩
    obtain ⟨i, hi, -⟩ := decodesByRow_of_matches hmem hmatch
    exact ⟨i, hi⟩

/-- Settles O4: both rows are the row of what the word decodes to. -/
theorem noWordMatchesTwoRows : Obligations.NoWordMatchesTwoRows := by
  intro w r q hr hq hrw hqw
  obtain ⟨i, hi, rfl⟩ := decodesByRow_of_matches hr hrw
  obtain ⟨j, hj, rfl⟩ := decodesByRow_of_matches hq hqw
  cases hi.symm.trans hj
  rfl

/-! ### The unrecognized space (R75) -/

theorem decode8_eq_error_iff {x y n : Nibble} {e : DecodeReject} :
    decode8 x y n = .error e ↔
      e = .unrecognized8xyn ∧ n ∈ ([0x8, 0x9, 0xA, 0xB, 0xC, 0xD, 0xF] : List Nibble) := by
  unfold decode8
  split
  case h_10 =>
    have hn : n ∈ ([0x8, 0x9, 0xA, 0xB, 0xC, 0xD, 0xF] : List Nibble) := by
      simp only [imp_false, List.mem_cons] at *
      bv_omega
    rw [and_iff_left hn, Except.error.injEq, eq_comm]
  all_goals
    rename_i hn
    rw [(BitVec.toNat_eq_nat.1 hn).2]
    simp

theorem decodeE_eq_error_iff {x : Nibble} {nn : Byte} {e : DecodeReject} :
    decodeE x nn = .error e ↔ e = .unrecognizedExnn ∧ nn ∉ ([0x9E, 0xA1] : List Byte) := by
  unfold decodeE
  split
  case h_3 => simp_all [← BitVec.toNat_inj, eq_comm]
  all_goals
    rename_i hn
    rw [(BitVec.toNat_eq_nat.1 hn).2]
    simp

theorem decodeF_eq_error_iff {x : Nibble} {nn : Byte} {e : DecodeReject} :
    decodeF x nn = .error e ↔ e = .unrecognizedFxnn ∧
      nn ∉ ([0x07, 0x0A, 0x15, 0x18, 0x1E, 0x29, 0x33, 0x55, 0x65] : List Byte) := by
  unfold decodeF
  split
  case h_10 => simp_all [← BitVec.toNat_inj, eq_comm]
  all_goals
    rename_i hn
    rw [(BitVec.toNat_eq_nat.1 hn).2]
    simp

/-- The part of R75's list that a reject is named after. -/
def UnrecognizedPart (w : Word) (e : DecodeReject) : Prop :=
  match e with
  | .unrecognized0nnn => fieldOp w = 0x0 ∧ w ≠ 0x00E0 ∧ w ≠ 0x00EE
  | .unrecognized5xyn => fieldOp w = 0x5 ∧ fieldN w ≠ 0
  | .unrecognized8xyn => fieldOp w = 0x8 ∧ fieldN w ∈ ([0x8, 0x9, 0xA, 0xB, 0xC, 0xD, 0xF] : List Nibble)
  | .unrecognized9xyn => fieldOp w = 0x9 ∧ fieldN w ≠ 0
  | .unrecognizedExnn => fieldOp w = 0xE ∧ fieldNN w ∉ ([0x9E, 0xA1] : List Byte)
  | .unrecognizedFxnn =>
    fieldOp w = 0xF ∧ fieldNN w ∉ ([0x07, 0x0A, 0x15, 0x18, 0x1E, 0x29, 0x33, 0x55, 0x65] : List Byte)
  | .tooShort => False

theorem decodeWord_eq_error_iff {w : Word} {e : DecodeReject} : decodeWord w = .error e ↔ UnrecognizedPart w e := by
  unfold decodeWord
  dsimp only
  split
  case h_16 =>
    have hop := fieldOp_eq_15 (w := w) (fun k hk => by interval_cases k <;> assumption)
    rw [decodeF_eq_error_iff]
    cases e <;> simp [UnrecognizedPart, hop]
  case h_15 hop =>
    rw [decodeE_eq_error_iff]
    cases e <;> simp [UnrecognizedPart, (BitVec.toNat_eq_nat.1 hop).2]
  case h_9 hop =>
    rw [decode8_eq_error_iff]
    cases e <;> simp [UnrecognizedPart, (BitVec.toNat_eq_nat.1 hop).2]
  all_goals
    rename_i hop
    cases e <;> simp [UnrecognizedPart, (BitVec.toNat_eq_nat.1 hop).2, ite_eq_iff]

/-- Settles O5: a reject names the part of the unrecognized space its word lies in. -/
theorem unrecognizedSpaceByName : Obligations.UnrecognizedSpaceByName := fun _ =>
  ⟨decodeWord_eq_error_iff, decodeWord_eq_error_iff, decodeWord_eq_error_iff, decodeWord_eq_error_iff,
    decodeWord_eq_error_iff, decodeWord_eq_error_iff, fun h => decodeWord_eq_error_iff.1 h⟩

/-- Settles O6: each word evaluated, as in the decoder's tests. -/
theorem sampleWordsDecode : Obligations.SampleWordsDecode :=
  ⟨rfl, rfl, rfl, rfl, rfl, rfl, rfl, rfl, rfl⟩

end Sys2Proof
end

section
/-!
Memory as data (the canonical form, notes/assumptions/1.md), the state after reset, and the host operations that write
memory (spec/10_state.md R31, R40; spec/70_reset_and_hazards.md R190, R193).
-/

namespace Sys2Proof.Machine

/-! ### Equal bytes, equal data -/

theorem Memory.peek_cons_self (a : Nat) (w : Byte) (r : Memory) : Memory.peek ((a, w) :: r) a = w := by
  simp [Memory.peek]

theorem Memory.peek_cons_of_ne {a b : Nat} (h : b ≠ a) (w : Byte) (r : Memory) :
    Memory.peek ((a, w) :: r) b = r.peek b := by
  simp [Memory.peek, h]

/-- A listed byte is told apart from a memory that starts above it. -/
theorem Memory.peek_head_ne {lo lo' a : Nat} {w : Byte} {r m : Memory} (hr : Memory.wfFrom lo ((a, w) :: r) = true)
    (hm : m.wfFrom lo' = true) (ha : a < lo') : Memory.peek ((a, w) :: r) a ≠ m.peek a := by
  rw [Memory.peek_cons_self, Memory.peek_below ha hm]
  exact (Memory.wfFrom_cons.1 hr).2.2.1

theorem Memory.eq_of_peek_eq {m m' : Memory} {lo lo' : Nat} (hm : m.wfFrom lo = true) (hm' : m'.wfFrom lo' = true)
    (h : ∀ a, m.peek a = m'.peek a) : m = m' := by
  induction m generalizing m' lo lo' with
  | nil =>
    cases m' with
    | nil => rfl
    | cons c r =>
      exact absurd (h c.1).symm (Memory.peek_head_ne hm' (lo' := c.1 + 1) rfl (Nat.lt_succ_self _))
  | cons c r ih =>
    obtain ⟨a, w⟩ := c
    cases m' with
    | nil => exact absurd (h a) (Memory.peek_head_ne hm (lo' := a + 1) rfl (Nat.lt_succ_self _))
    | cons d q =>
      obtain ⟨b, v⟩ := d
      obtain ⟨-, ha, hw, hr⟩ := Memory.wfFrom_cons.1 hm
      obtain ⟨-, hb, hv, hq⟩ := Memory.wfFrom_cons.1 hm'
      obtain hlt | rfl | hgt := Nat.lt_trichotomy a b
      · exact absurd (h a) (Memory.peek_head_ne hm (Memory.wfFrom_cons.2 ⟨Nat.le_refl b, hb, hv, hq⟩) hlt)
      · obtain rfl : w = v := by simpa [Memory.peek_cons_self] using h a
        congr 1
        refine ih hr hq fun c => ?_
        by_cases hc : c = a
        · rw [hc, Memory.peek_below (Nat.lt_succ_self a) hr, Memory.peek_below (Nat.lt_succ_self a) hq]
        · simpa [Memory.peek_cons_of_ne hc] using h c
      · exact absurd (h b).symm (Memory.peek_head_ne hm' (Memory.wfFrom_cons.2 ⟨Nat.le_refl a, ha, hw, hr⟩) hgt)

/-- Settles O12: the least address listed in one and not in the other would read differently. -/
theorem canonicalMemoriesAreEqual : Obligations.CanonicalMemoriesAreEqual := fun _ _ hm hm' h =>
  Memory.eq_of_peek_eq hm hm' h

/-! ### Reset -/

/-- Settles O8: each field is a literal of `State.reset`, and memory lists nothing. -/
theorem resetStateIsTheTable : Obligations.ResetStateIsTheTable := by
  refine ⟨by decide, rfl, rfl, rfl, by decide, rfl, FrameBuffer.pixel_clear, rfl, by decide, rfl, rfl, rfl, rfl,
    ?above, by decide⟩
  case above => exact fun a ha => unlistedByte_above ha

/-- Settles O9: the font goes in by a load, which keeps the canonical form. -/
theorem resetMeetsInvariant : Obligations.ResetMeetsInvariant := by
  have hreset : State.reset.Inv := by decide
  have ⟨hpc, hstack, hhalt, hfault, _⟩ := hreset
  exact ⟨hreset, fun _ _ => ⟨hpc, hstack, hhalt, hfault, loadBytes_wf Memory.wf_reset 0 _⟩⟩

/-- Settles O60: the reset block is a literal but for the font, which the load puts at 0 to 79. -/
theorem resetIsTotal : Obligations.ResetIsTotal := by
  intro b font
  have hwf : (loadBytes [] 0 font.toList).wf = true := loadBytes_wf Memory.wf_reset 0 _
  have hfont (k : Fin 80) : (loadBytes [] 0 font.toList).peek k.val = font[k.val] := by
    have h := loadBytes_at Memory.wf_reset 0 font.toList k.val (by simp) (by omega)
    rw [Nat.zero_add] at h
    exact h.trans (by simp)
  have hzero (a : Nat) (ha : 80 ≤ a) : (loadBytes [] 0 font.toList).peek a = 0 := by
    rw [loadBytes_other _ _ _ (by simp; omega)]
    exact unlistedByte_above ha
  refine ⟨_, rfl, hfont, hzero, hwf, fun hdefault => canonicalMemoriesAreEqual _ _ hwf rfl fun a => ?_⟩
  by_cases ha : a < 80
  · rw [hfont ⟨a, ha⟩]
    show font[a] = fontTable.getD a 0
    simp [← hdefault, ha]
  · rw [hzero a (by omega)]
    exact (unlistedByte_above (by omega)).symm

/-! ### The program load -/

/-- Settles O58: the load is `loadBytes` at 0x200. -/
theorem loadCopiesTheProgram : Obligations.LoadCopiesTheProgram := fun s bytes =>
  ⟨fun hwf k hk hfit => loadBytes_at hwf 0x200 bytes k hk (by omega),
    fun a ha => loadBytes_other _ 0x200 _ (by omega), rfl, rfl, rfl⟩

/-! ### The other ports -/

/-- Settles O59: each port is one field update, or none. -/
theorem hostPortsTouchOnlyTheirs : Obligations.HostPortsTouchOnlyTheirs := by
  intro b k p
  refine ⟨⟨_, rfl, rfl, fun j => ?latch⟩, rfl, rfl, rfl⟩
  case latch => simp [Vector.getElem_set, BitVec.toNat_inj, eq_comm]

end Sys2Proof.Machine
end

section
/-!
What each instruction does, said once. First the equations of the instructions that have a branch, one per branch
(those without one are single equations, here or in the sections above); then two relations that sort the 34
constructors, the faults an instruction raises (`Raises`, spec/60_exceptions.md R161) and the shapes of a completed
instruction (`Effect`), and the inversion `exec_inv` from which the rules over all instructions are derived.
-/

namespace Sys2Proof.Machine

/-! ### Control transfer through the stack (spec/41_flow.md R101, R103) -/

theorem exec_ret_of_pos {s : State} (h : 0 < s.sp.val) :
    exec .ret s = .next { s with pc := s.stack[s.sp.val - 1], sp := ⟨s.sp.val - 1, by omega⟩ } := by
  simp only [exec, execRet, State.pop, dif_pos h]
  rfl

theorem exec_ret_of_empty {s : State} (h : s.sp.val = 0) : exec .ret s = .next (s.raise .stackUnderflow 0) := by
  simp only [exec, execRet, State.pop_eq_none.2 h]

theorem exec_call_of_lt {s : State} (nnn : Imm12) (h : s.sp.val < 16) :
    exec (.call nnn) s = .next { s with
      pc := immWord nnn, stack := s.stack.set s.sp.val (s.pc + 2) h, sp := ⟨s.sp.val + 1, by omega⟩ } := by
  simp only [exec, execCall, State.push, dif_pos h]
  rfl

theorem exec_call_of_full {s : State} (nnn : Imm12) (h : s.sp.val = 16) :
    exec (.call nnn) s = .next (s.raise .stackOverflow 16) := by
  simp only [exec, execCall, State.push_eq_none.2 h]

/-! ### Arithmetic with a flag (spec/42_alu.md R117 to R121) -/

theorem exec_addReg (x y : Nibble) (s : State) : exec (.addReg x y) s =
    .next (s.advance.setRegFlag x (s.reg x + s.reg y) (carryOut (s.reg x) (s.reg y))) := rfl

theorem exec_subReg (x y : Nibble) (s : State) : exec (.subReg x y) s =
    .next (s.advance.setRegFlag x (s.reg x - s.reg y) (noBorrow (s.reg x) (s.reg y))) := rfl

theorem exec_subn (x y : Nibble) (s : State) : exec (.subn x y) s =
    .next (s.advance.setRegFlag x (s.reg y - s.reg x) (noBorrow (s.reg y) (s.reg x))) := rfl

theorem exec_shr (x y : Nibble) (s : State) : exec (.shr x y) s =
    .next (s.advance.setRegFlag x (s.reg x >>> 1) (shiftedOutLow (s.reg x))) := rfl

theorem exec_shl (x y : Nibble) (s : State) : exec (.shl x y) s =
    .next (s.advance.setRegFlag x (s.reg x <<< 1) (shiftedOutHigh (s.reg x))) := rfl

/-! ### Index register and memory (spec/43_index_memory.md), display (spec/44_display.md R142) -/

theorem exec_addIVx (x : Nibble) (s : State) :
    exec (.addIVx x) s = .next (s.advance.setI (s.i + byteWord (s.reg x))) := rfl

theorem exec_ldFVx (x : Nibble) (s : State) :
    exec (.ldFVx x) s = .next (s.advance.setI (glyphAddress (s.reg x))) := rfl

theorem exec_ldBVx_of_some {s : State} {x : Nibble} {m : Memory}
    (h : writeSpan s.mem s.i.toNat (bcdDigits (s.reg x)) = some m) :
    exec (.ldBVx x) s = .next { s.advance with mem := m } := by
  simp only [exec, execLdBVx, h]

theorem exec_ldMemVx_of_some {s : State} {x : Nibble} {m : Memory}
    (h : writeSpan s.mem s.i.toNat (s.regBlock x) = some m) :
    exec (.ldMemVx x) s = .next { s.advance.setI (s.i + BitVec.ofNat 16 (x.toNat + 1)) with mem := m } := by
  simp only [exec, execLdMemVx, h]

theorem exec_ldVxMem_of_some {s : State} {x : Nibble} {bs : List Byte}
    (h : readSpan s.mem s.i.toNat (x.toNat + 1) = some bs) :
    exec (.ldVxMem x) s = .next ((s.advance.setI (s.i + BitVec.ofNat 16 (x.toNat + 1))).setRegBlock bs) := by
  simp only [exec, execLdVxMem, h]

theorem exec_drw_of_some {s : State} {x y n : Nibble} {sprite : List Byte}
    (h : readSpan s.mem s.i.toNat n.toNat = some sprite) :
    exec (.drw x y n) s = .next { s.advance.setFlag (s.fb.draw (s.reg x) (s.reg y) sprite).2 with
      fb := (s.fb.draw (s.reg x) (s.reg y) sprite).1, dirty := true } := by
  simp only [exec, execDrw, h]

/-- The failure of a span of writes in the terms of R63: it is not empty and its last byte lies at 4096 or above. -/
theorem writeSpan_eq_none {m : Memory} {a : Nat} {bs : List Byte} :
    writeSpan m a bs = none ↔ 1 ≤ bs.length ∧ 4096 ≤ a + bs.length - 1 := by
  rw [← Option.not_isSome_iff_eq_none, writeSpan_isSome]
  omega

/-- The span of data bytes of an instruction is not empty and reaches beyond 4095 (spec/20_memory.md R63). -/
def State.OutOfRange (s : State) (i : Instr) : Prop := 1 ≤ dataBytes i ∧ 4096 ≤ s.i.toNat + dataBytes i - 1

/-- Every instruction with data bytes raises when its span is out of range (R63, D5). -/
theorem exec_of_outOfRange {s : State} {i : Instr} (h : s.OutOfRange i) : exec i s = .next s.raiseData := by
  cases i with
  | drw x y n =>
    have hread : readSpan s.mem s.i.toNat n.toNat = none := readSpan_eq_none.2 h
    simp only [exec, execDrw, hread]
  | ldBVx x =>
    have hwrite : writeSpan s.mem s.i.toNat (bcdDigits (s.reg x)) = none := writeSpan_eq_none.2 h
    simp only [exec, execLdBVx, hwrite]
  | ldMemVx x =>
    have hwrite : writeSpan s.mem s.i.toNat (s.regBlock x) = none := by
      rw [writeSpan_eq_none, State.regBlock_length]; exact h
    simp only [exec, execLdMemVx, hwrite]
  | ldVxMem x =>
    have hread : readSpan s.mem s.i.toNat (x.toNat + 1) = none := readSpan_eq_none.2 h
    simp only [exec, execLdVxMem, hread]
  | _ => exact absurd h.1 (Nat.not_succ_le_zero 0)

theorem exists_readSpan_sprite {s : State} {x y n : Nibble} (h : ¬ s.OutOfRange (.drw x y n)) :
    ∃ sprite, readSpan s.mem s.i.toNat n.toNat = some sprite :=
  Option.ne_none_iff_exists'.1 (mt readSpan_eq_none.1 h)

theorem exists_writeSpan_bcdDigits {s : State} {x : Nibble} (h : ¬ s.OutOfRange (.ldBVx x)) :
    ∃ m, writeSpan s.mem s.i.toNat (bcdDigits (s.reg x)) = some m :=
  Option.ne_none_iff_exists'.1 (mt (writeSpan_eq_none (bs := bcdDigits (s.reg x))).1 h)

theorem exists_writeSpan_regBlock {s : State} {x : Nibble} (h : ¬ s.OutOfRange (.ldMemVx x)) :
    ∃ m, writeSpan s.mem s.i.toNat (s.regBlock x) = some m := by
  rw [← Option.ne_none_iff_exists', ne_eq, writeSpan_eq_none, State.regBlock_length]
  exact h

theorem exists_readSpan_block {s : State} {x : Nibble} (h : ¬ s.OutOfRange (.ldVxMem x)) :
    ∃ bs, readSpan s.mem s.i.toNat (x.toNat + 1) = some bs :=
  Option.ne_none_iff_exists'.1 (mt readSpan_eq_none.1 h)

/-! ### Keys and the random byte (spec/45_keypad_timer_random.md R150 to R153) -/

theorem exec_skp_of_lt {s : State} {x : Nibble} (h : (s.reg x).toNat < 16) :
    exec (.skp x) s = .next (s.setPc (if s.key[(s.reg x).toNat] = true then s.pc + 4 else s.pc + 2)) := by
  simp only [exec, execSkp, State.isPressed_of_lt h, State.skipIf_eq_setPc]

theorem exec_sknp_of_lt {s : State} {x : Nibble} (h : (s.reg x).toNat < 16) :
    exec (.sknp x) s = .next (s.setPc (if s.key[(s.reg x).toNat] = true then s.pc + 2 else s.pc + 4)) := by
  simp only [exec, execSknp, State.isPressed_of_lt h, State.skipIf_eq_setPc, Bool.not_eq_true',
    ite_not, ← Bool.not_eq_true]

theorem exec_skp_of_gt {s : State} {x : Nibble} (h : 15 < (s.reg x).toNat) :
    exec (.skp x) s = .next (s.raise .keyIndexOutOfRange (byteWord (s.reg x))) := by
  simp only [exec, execSkp, State.isPressed_eq_none.2 h]

theorem exec_sknp_of_gt {s : State} {x : Nibble} (h : 15 < (s.reg x).toNat) :
    exec (.sknp x) s = .next (s.raise .keyIndexOutOfRange (byteWord (s.reg x))) := by
  simp only [exec, execSknp, State.isPressed_eq_none.2 h]

theorem exec_ldVxK_of_some {s : State} {k : Nibble} (x : Nibble) (h : s.keyScan = some k) :
    exec (.ldVxK x) s = .next (s.advance.setReg x (k.zeroExtend 8)) := by
  simp only [exec, execLdVxK, h]

theorem exec_ldVxK_of_none {s : State} (x : Nibble) (h : s.keyScan = none) : exec (.ldVxK x) s = .next s :=
  exec_of_waitsOn (by simp [State.waitsOn, h])

theorem exec_rnd (x : Nibble) (nn : Byte) (s : State) : exec (.rnd x nn) s =
    .next { s.advance.setReg x (Config.rnd s.draws &&& nn) with draws := s.draws + 1 } := rfl

/-! ### The two ways of an instruction -/

/-- The faults an instruction raises, each with its condition and its info (spec/60_exceptions.md R161). -/
inductive Raises (s : State) : Instr → FaultCause → Word → Prop
  | underflow (h : s.sp.val = 0) : Raises s .ret .stackUnderflow 0
  | overflow {nnn : Imm12} (h : s.sp.val = 16) : Raises s (.call nnn) .stackOverflow 16
  | data {i : Instr} (h : s.OutOfRange i) :
    Raises s i .dataOutOfRange (BitVec.ofNat 16 (max s.i.toNat Config.memSize))
  | skp {x : Nibble} (h : 15 < (s.reg x).toNat) : Raises s (.skp x) .keyIndexOutOfRange (byteWord (s.reg x))
  | sknp {x : Nibble} (h : 15 < (s.reg x).toNat) : Raises s (.sknp x) .keyIndexOutOfRange (byteWord (s.reg x))

/-- Where an instruction that writes only the pc may lead: a computed target (at most 0x10FE, spec/10_state.md R41),
or at most two instructions on. -/
def State.Target (s : State) (w : Word) : Prop := w.toNat ≤ 0x10FE ∨ w = s.pc ∨ w = s.pc + 2 ∨ w = s.pc + 4

/-- The shapes of a completed instruction: which parts of the state it writes, and what bounds the values. -/
inductive Effect (s : State) : Instr → State → Prop
  | goto {i : Instr} {w : Word} (hw : s.Target w) : Effect s i (s.setPc w)
  | ret (h : 0 < s.sp.val) :
    Effect s .ret { s with pc := s.stack[s.sp.val - 1], sp := ⟨s.sp.val - 1, by omega⟩ }
  | call {nnn : Imm12} (h : s.sp.val < 16) :
    Effect s (.call nnn) { s with
      pc := immWord nnn, stack := s.stack.set s.sp.val (s.pc + 2) h, sp := ⟨s.sp.val + 1, by omega⟩ }
  | reg {i : Instr} {x : Nibble} {b : Byte} (hx : mayWrite i x) : Effect s i (s.advance.setReg x b)
  | regFlag {i : Instr} {x : Nibble} {b : Byte} {f : Bool} (hx : mayWrite i x) (hf : mayWrite i 15) :
    Effect s i (s.advance.setRegFlag x b f)
  | index {i : Instr} {w : Word} (hi : (∃ nnn, i = .ldI nnn) ∨ ∃ x, i = .addIVx x ∨ i = .ldFVx x) :
    Effect s i (s.advance.setI w)
  | timer {x : Nibble} : Effect s (.ldDtVx x) { s.advance with dt := s.reg x }
  | random {x : Nibble} {nn b : Byte} :
    Effect s (.rnd x nn) { s.advance.setReg x b with draws := s.draws + 1 }
  | clear : Effect s .cls { s.advance with fb := FrameBuffer.clear, dirty := true }
  | draw {x y n : Nibble} {f : Bool} {fb : FrameBuffer} :
    Effect s (.drw x y n) { s.advance.setFlag f with fb := fb, dirty := true }
  | digits {x : Nibble} {bs : List Byte} {m : Memory} (hm : writeSpan s.mem s.i.toNat bs = some m) :
    Effect s (.ldBVx x) { s.advance with mem := m }
  | store {x : Nibble} {bs : List Byte} {m : Memory} {w : Word} (hm : writeSpan s.mem s.i.toNat bs = some m) :
    Effect s (.ldMemVx x) { s.advance.setI w with mem := m }
  | load {x : Nibble} {bs : List Byte} {w : Word} (hl : bs.length = x.toNat + 1) :
    Effect s (.ldVxMem x) ((s.advance.setI w).setRegBlock bs)

/-- All an instruction can do: raise a fault, or complete with all of its data in range. -/
def Runs (i : Instr) (s t : State) : Prop :=
  (∃ c v, Raises s i c v ∧ t = s.raise c v) ∨ (¬ s.OutOfRange i ∧ Effect s i t)

theorem not_outOfRange {s : State} {i : Instr} (h : dataBytes i = 0) : ¬ s.OutOfRange i := by
  simp [State.OutOfRange, h]

theorem Effect.runs {i : Instr} {s t : State} (he : Effect s i t) (hd : dataBytes i = 0) : Runs i s t :=
  .inr ⟨not_outOfRange hd, he⟩

theorem Raises.runs {i : Instr} {s : State} {c : FaultCause} {v : Word} (hr : Raises s i c v) :
    Runs i s (s.raise c v) := .inl ⟨c, v, hr, rfl⟩

theorem target_skip (s : State) {p : Prop} [Decidable p] : s.Target (if p then s.pc + 4 else s.pc + 2) := by
  unfold State.Target; split <;> simp

theorem target_skip_not (s : State) {p : Prop} [Decidable p] : s.Target (if p then s.pc + 2 else s.pc + 4) := by
  unfold State.Target; split <;> simp

/-- Every instruction answers a next state, of one of the shapes above. -/
theorem exec_runs (i : Instr) (s : State) : ∃ t, exec i s = .next t ∧ Runs i s t := by
  by_cases hdata : s.OutOfRange i
  · exact ⟨_, exec_of_outOfRange hdata, (Raises.data hdata).runs⟩
  cases i with
  | cls => exact ⟨_, exec_cls s, Effect.runs .clear rfl⟩
  | ret =>
    obtain h | h := Nat.eq_zero_or_pos s.sp.val
    · exact ⟨_, exec_ret_of_empty h, (Raises.underflow h).runs⟩
    · exact ⟨_, exec_ret_of_pos h, Effect.runs (.ret h) rfl⟩
  | call nnn =>
    by_cases h : s.sp.val < 16
    · exact ⟨_, exec_call_of_lt nnn h, Effect.runs (.call h) rfl⟩
    · have hfull : s.sp.val = 16 := by omega
      exact ⟨_, exec_call_of_full nnn hfull, (Raises.overflow hfull).runs⟩
  | jp nnn => exact ⟨_, exec_jp nnn s, Effect.runs (.goto (.inl (by rw [immWord_toNat]; omega))) rfl⟩
  | jpV0 nnn =>
    exact ⟨_, exec_jpV0 nnn s, Effect.runs (.goto (.inl (by rw [immWord_add_byteWord_toNat]; omega))) rfl⟩
  | seImm x nn => exact ⟨_, exec_seImm x nn s, Effect.runs (.goto (target_skip s)) rfl⟩
  | sneImm x nn => exact ⟨_, exec_sneImm x nn s, Effect.runs (.goto (target_skip_not s)) rfl⟩
  | seReg x y => exact ⟨_, exec_seReg x y s, Effect.runs (.goto (target_skip s)) rfl⟩
  | sneReg x y => exact ⟨_, exec_sneReg x y s, Effect.runs (.goto (target_skip_not s)) rfl⟩
  | ldStVx x => exact ⟨_, exec_ldStVx x s, Effect.runs (.goto (.inr (.inr (.inl rfl)))) rfl⟩
  | skp x =>
    by_cases h : (s.reg x).toNat < 16
    · exact ⟨_, exec_skp_of_lt h, Effect.runs (.goto (target_skip s)) rfl⟩
    · exact ⟨_, exec_skp_of_gt (by omega), (Raises.skp (by omega)).runs⟩
  | sknp x =>
    by_cases h : (s.reg x).toNat < 16
    · exact ⟨_, exec_sknp_of_lt h, Effect.runs (.goto (target_skip_not s)) rfl⟩
    · exact ⟨_, exec_sknp_of_gt (by omega), (Raises.sknp (by omega)).runs⟩
  | ldVxK x =>
    cases h : s.keyScan with
    | none => exact ⟨_, exec_ldVxK_of_none x h, Effect.runs (.goto (w := s.pc) (.inr (.inl rfl))) rfl⟩
    | some k => exact ⟨_, exec_ldVxK_of_some x h, Effect.runs (.reg rfl) rfl⟩
  | ldImm x nn | addImm x nn => exact ⟨_, rfl, Effect.runs (.reg rfl) rfl⟩
  | ldReg x y | orReg x y | andReg x y | xorReg x y => exact ⟨_, rfl, Effect.runs (.reg rfl) rfl⟩
  | ldVxDt x => exact ⟨_, rfl, Effect.runs (.reg rfl) rfl⟩
  | addReg x y | subReg x y | shr x y | subn x y | shl x y =>
    exact ⟨_, rfl, Effect.runs (.regFlag (.inl rfl) (.inr rfl)) rfl⟩
  | ldI nnn => exact ⟨_, exec_ldI nnn s, Effect.runs (.index (.inl ⟨nnn, rfl⟩)) rfl⟩
  | addIVx x => exact ⟨_, exec_addIVx x s, Effect.runs (.index (.inr ⟨x, .inl rfl⟩)) rfl⟩
  | ldFVx x => exact ⟨_, exec_ldFVx x s, Effect.runs (.index (.inr ⟨x, .inr rfl⟩)) rfl⟩
  | ldDtVx x => exact ⟨_, exec_ldDtVx x s, Effect.runs .timer rfl⟩
  | rnd x nn => exact ⟨_, exec_rnd x nn s, Effect.runs .random rfl⟩
  | drw x y n =>
    obtain ⟨sprite, h⟩ := exists_readSpan_sprite hdata
    exact ⟨_, exec_drw_of_some h, .inr ⟨hdata, .draw⟩⟩
  | ldBVx x =>
    obtain ⟨m, h⟩ := exists_writeSpan_bcdDigits hdata
    exact ⟨_, exec_ldBVx_of_some h, .inr ⟨hdata, .digits h⟩⟩
  | ldMemVx x =>
    obtain ⟨m, h⟩ := exists_writeSpan_regBlock hdata
    exact ⟨_, exec_ldMemVx_of_some h, .inr ⟨hdata, .store h⟩⟩
  | ldVxMem x =>
    obtain ⟨bs, h⟩ := exists_readSpan_block hdata
    exact ⟨_, exec_ldVxMem_of_some h, .inr ⟨hdata, .load (readSpan_length h)⟩⟩

/-- The inversion the rules over all instructions start from. -/
theorem exec_inv {i : Instr} {s t : State} (h : exec i s = .next t) : Runs i s t := by
  obtain ⟨u, hu, hr⟩ := exec_runs i s
  cases hu.symm.trans h
  exact hr

end Sys2Proof.Machine
end

section
/-!
The machine invariant of spec/10_state.md R41, kept by every step and by every host operation. Halt latch, fault
record and memory follow from `step_cases`; the pc and the live part of the stack from the shapes of a completed
instruction.
-/

namespace Sys2Proof.Machine

/-! ### The pc and the stack after a completed instruction -/

/-- (b) of R41: the live entries of the stack are addresses a call can have left. -/
def State.StackInRange (s : State) : Prop := ∀ k : Fin 16, k.val < s.sp.val → (s.stack[k.val]).toNat ≤ 4096

theorem Effect.pc_le {i : Instr} {s t : State} (h : Effect s i t) (hpc : s.pc.toNat ≤ 4094) (hst : s.StackInRange) :
    t.pc.toNat ≤ 0x10FE := by
  have hadvance : (s.pc + 2).toNat ≤ 0x10FE := by bv_omega
  cases h with
  | goto hw =>
    rw [State.setPc_pc]
    unfold State.Target at hw
    bv_omega
  | ret h =>
    have := hst ⟨s.sp.val - 1, by omega⟩ (by simp only; omega)
    simp only at this ⊢
    omega
  | call h => simp only [immWord_toNat]; omega
  | _ => exact hadvance

theorem Effect.stackInRange {i : Instr} {s t : State} (h : Effect s i t) (hpc : s.pc.toNat ≤ 4094)
    (hst : s.StackInRange) : t.StackInRange := by
  cases h with
  | ret h => exact fun k hk => hst k (by simp only at hk; omega)
  | call h =>
    intro k hk
    simp only [Vector.getElem_set]
    split
    · bv_omega
    · exact hst k (by simp only at hk; omega)
  | _ => exact hst

/-! ### The step -/

/-- A fault and a tick leave the invariant's other parts alone. -/
theorem State.Inv.raise {s : State} (h : s.Inv) {c : FaultCause} (hc : c ≠ .none) (w : Word) : (s.raise c w).Inv := by
  obtain ⟨hpc, hst, -, -, hmem⟩ := h
  exact ⟨hpc, hst, by simp [hc], hpc, hmem⟩

theorem State.Inv.tick {s : State} (h : s.Inv) : s.tick.Inv := by
  simpa [State.Inv] using h

theorem fetch_eq_some_pc {s : State} {w : Word} (h : s.fetch = some w) : s.pc.toNat ≤ 4094 := by
  rw [State.fetch_eq] at h
  split at h
  · omega
  · cases h

/-- Settles O10: case by case of `step_cases`, the completed instruction by its shape. -/
theorem stepKeepsInvariant : Obligations.StepKeepsInvariant := by
  intro s t hs hstep
  obtain ⟨t', ht', hcases⟩ := step_cases s
  cases ht'.symm.trans hstep
  have ⟨hpc, hst, hhalt, hfpc, hmem⟩ := hs
  rcases hcases with ⟨-, rfl⟩ | ⟨-, -, rfl⟩ | ⟨-, w, e, hf, -, rfl⟩ |
    ⟨hrun, w, i, hf, -, ⟨u, hu, hc, rfl⟩ | ⟨c, v, hne, -, rfl⟩⟩
  · exact hs
  · exact hs.raise (by decide) _
  · have := fetch_eq_some_pc hf
    exact State.Inv.tick ⟨by rw [State.advance_pc]; bv_omega, hst, hhalt, hfpc, hmem⟩
  · have hle := fetch_eq_some_pc hf
    obtain ⟨hh, hfault, -, hwf⟩ := hc
    obtain ⟨c, v, -, rfl⟩ | ⟨-, he⟩ := exec_inv hu
    · simp [hrun] at hh
    · exact State.Inv.tick ⟨he.pc_le hle hst, he.stackInRange hle hst, by rw [hh, hfault]; exact hhalt,
        by rw [hfault]; exact hfpc, hwf hmem⟩
  · exact hs.raise hne v

/-- Settles O11: reset by O9, step by O10; a load keeps the canonical form, the other ports write nothing R41 speaks
of. -/
theorem hostOperationsKeepInvariant : Obligations.HostOperationsKeepInvariant := by
  intro op b b' r hb h
  have ⟨hpc, hst, hhalt, hfpc, hmem⟩ := hb
  cases op with
  | reset font => cases h; exact resetMeetsInvariant.2 _ font
  | load bytes =>
    simp only [hostOp] at h
    split at h
    · cases h
    · cases h; exact ⟨hpc, hst, hhalt, hfpc, loadBytes_wf hmem _ _⟩
  | step =>
    obtain ⟨t, ht, -⟩ := step_cases b.state
    simp only [hostOp, ht] at h
    cases h; exact stepKeepsInvariant _ _ hb ht
  | keySet k p => cases h; exact hb
  | readFrame => cases h; exact hb
  | presentAck => cases h; exact hb
  | readFault => cases h; exact hb

end Sys2Proof.Machine
end

section
/-!
The rules over all instructions (spec/10_state.md R20 to R22, R33 to R35; spec/20_memory.md R63), derived from the
shapes of `exec_inv`, and the non-interference of the display and of the key latches.
-/

namespace Sys2Proof.Machine

/-! ### What a fault leaves as it was (spec/60_exceptions.md R162) -/

theorem keepsAllButFault_raise (s : State) (c : FaultCause) (w : Word) : KeepsAllButFault s (s.raise c w) :=
  ⟨rfl, fun _ => rfl, rfl, ⟨rfl, rfl⟩, rfl, ⟨rfl, rfl⟩, ⟨rfl, rfl⟩, fun _ => rfl⟩

/-- The info of `DataOutOfRange` fits in 16 bits. -/
theorem dataInfo_toNat (s : State) : (BitVec.ofNat 16 (max s.i.toNat Config.memSize)).toNat = max s.i.toNat 4096 := by
  have := s.i.isLt
  rw [BitVec.toNat_ofNat]
  exact Nat.mod_eq_of_lt (by simp only [Config.memSize]; omega)

/-! ### Writers -/

/-- Settles O21: a fault writes none of the parts, and each shape writes the parts of its own instructions. -/
theorem eachPartHasItsWriters : Obligations.EachPartHasItsWriters := by
  intro i s t h
  obtain ⟨c, v, -, rfl⟩ | ⟨-, he⟩ := exec_inv h
  · simp
  · cases he with
    | index hi =>
      refine ⟨rfl, absurd rfl, fun _ => ?_, absurd rfl, absurd rfl, absurd rfl, by simp⟩
      obtain h | ⟨x, h | h⟩ := hi
      · exact .inl h
      · exact .inr ⟨x, .inl h⟩
      · exact .inr ⟨x, .inr (.inl h)⟩
    | _ => simp

/-- Settles O22: a shape that writes a register names it among the destinations. -/
theorem onlyDestinationRegistersChange : Obligations.OnlyDestinationRegistersChange := by
  intro i s t r h hr
  have hne {x : Nibble} (hx : mayWrite i x) : r ≠ x := fun e => hr (e ▸ hx)
  obtain ⟨c, v, -, rfl⟩ | ⟨-, he⟩ := exec_inv h
  · rfl
  · cases he with
    | reg hx => rw [State.reg_setReg, if_neg (hne hx), State.reg_advance]
    | regFlag hx hf => rw [State.reg_setRegFlag, if_neg (hne hf), if_neg (hne hx), State.reg_advance]
    | @random x nn b =>
      exact (State.reg_setReg s.advance x r b).trans (if_neg hr)
    | @draw x y n f fb => exact (State.reg_setFlag s.advance f r).trans (if_neg hr)
    | load hl =>
      have habove : ¬ r.toNat < _ := fun hlt => hr (Nat.lt_succ_iff.1 (hlt.trans_eq hl))
      rw [State.reg_setRegBlock, dif_neg habove]
      rfl
    | _ => rfl

/-- The display is written by 00E0 and Dxyn alone. -/
theorem display_eq_of_exec {i : Instr} {s t : State} (hcls : i ≠ .cls) (hdrw : ∀ x y n, i ≠ .drw x y n)
    (h : exec i s = .next t) : t.fb = s.fb ∧ t.dirty = s.dirty := by
  obtain ⟨-, -, -, -, -, -, hwriters⟩ := eachPartHasItsWriters i s t h
  by_contra hne
  obtain rfl | ⟨x, y, n, rfl⟩ := hwriters (not_and_or.1 hne)
  · exact hcls rfl
  · exact hdrw x y n rfl

/-- A completed instruction leaves the halt latch alone. -/
theorem Effect.halt_eq {i : Instr} {s t : State} (h : Effect s i t) : t.halt = s.halt := by
  cases h <;> rfl

/-- The cause tells whether a raise is one of the data accesses. -/
theorem Raises.data_iff {i : Instr} {s : State} {c : FaultCause} {v : Word} (h : Raises s i c v) :
    c = .dataOutOfRange ↔ s.OutOfRange i := by
  cases h with
  | data h => simp [h]
  | _ => simp [State.OutOfRange, dataBytes]

/-- Settles O23: the data faults are raised exactly out of range, and a completed instruction raises nothing. -/
theorem spansAreAllOrNothing : Obligations.SpansAreAllOrNothing := by
  intro i s t hrun h
  obtain ⟨c, v, hr, rfl⟩ | ⟨hin, he⟩ := exec_inv h
  · refine ⟨(and_iff_right rfl).trans hr.data_iff, fun _ => ⟨keepsAllButFault_raise s c v, rfl⟩, fun _ hc => ?_⟩
    cases hr with
    | data _ => exact dataInfo_toNat s
    | _ => cases hc
  · have hhalt : t.halt = false := he.halt_eq.trans hrun
    exact ⟨iff_of_false (by simp [hhalt]) hin, by simp [hhalt], by simp [hhalt]⟩

/-! ### Non-interference: the same instruction on a state with other ports -/

/-- The state with another display and other key latches. -/
def State.withPorts (s : State) (f : FrameBuffer) (d : Bool) (k : Vector Bool 16) : State :=
  { s with fb := f, dirty := d, key := k }

/-- The instructions that read or write the display or the keys (R33 to R35). -/
def UsesPorts (i : Instr) : Prop :=
  match i with
  | .cls       => True
  | .drw _ _ _ => True
  | .skp _     => True
  | .sknp _    => True
  | .ldVxK _   => True
  | _          => False

/-- Every other instruction does the same whatever the ports hold, and leaves them as they are. -/
theorem exec_withPorts {i : Instr} {s t : State} (f : FrameBuffer) (d : Bool) (k : Vector Bool 16)
    (hi : ¬ UsesPorts i) (h : exec i s = .next t) : exec i (s.withPorts f d k) = .next (t.withPorts f d k) := by
  by_cases hdata : s.OutOfRange i
  · cases (exec_of_outOfRange hdata).symm.trans h
    exact exec_of_outOfRange (s := s.withPorts f d k) hdata
  cases i with
  | cls | drw x y n | skp x | sknp x | ldVxK x => exact absurd trivial hi
  | ret =>
    obtain hs | hs := Nat.eq_zero_or_pos s.sp.val
    · cases (exec_ret_of_empty hs).symm.trans h
      exact exec_ret_of_empty (s := s.withPorts f d k) hs
    · cases (exec_ret_of_pos hs).symm.trans h
      exact exec_ret_of_pos (s := s.withPorts f d k) hs
  | call nnn =>
    by_cases hs : s.sp.val < 16
    · cases (exec_call_of_lt nnn hs).symm.trans h
      exact exec_call_of_lt (s := s.withPorts f d k) nnn hs
    · have hfull : s.sp.val = 16 := by omega
      cases (exec_call_of_full nnn hfull).symm.trans h
      exact exec_call_of_full (s := s.withPorts f d k) nnn hfull
  | seImm x nn => cases (exec_seImm x nn s).symm.trans h; exact exec_seImm x nn (s.withPorts f d k)
  | sneImm x nn => cases (exec_sneImm x nn s).symm.trans h; exact exec_sneImm x nn (s.withPorts f d k)
  | seReg x y => cases (exec_seReg x y s).symm.trans h; exact exec_seReg x y (s.withPorts f d k)
  | sneReg x y => cases (exec_sneReg x y s).symm.trans h; exact exec_sneReg x y (s.withPorts f d k)
  | ldBVx x =>
    obtain ⟨m, hm⟩ := exists_writeSpan_bcdDigits hdata
    cases (exec_ldBVx_of_some hm).symm.trans h
    exact exec_ldBVx_of_some (s := s.withPorts f d k) hm
  | ldMemVx x =>
    obtain ⟨m, hm⟩ := exists_writeSpan_regBlock hdata
    cases (exec_ldMemVx_of_some hm).symm.trans h
    exact exec_ldMemVx_of_some (s := s.withPorts f d k) hm
  | ldVxMem x =>
    obtain ⟨bs, hbs⟩ := exists_readSpan_block hdata
    cases (exec_ldVxMem_of_some hbs).symm.trans h
    exact exec_ldVxMem_of_some (s := s.withPorts f d k) hbs
  | _ => cases h; rfl

/-- The key instructions too do the same whatever the display holds: only 00E0 and Dxyn are left out. -/
theorem exec_withDisplay {i : Instr} {s t : State} (f : FrameBuffer) (d : Bool) (hcls : i ≠ .cls)
    (hdrw : ∀ x y n, i ≠ .drw x y n) (h : exec i s = .next t) :
    exec i { s with fb := f, dirty := d } = .next { t with fb := f, dirty := d } := by
  cases i with
  | cls => exact absurd rfl hcls
  | drw x y n => exact absurd rfl (hdrw x y n)
  | skp x =>
    by_cases hk : (s.reg x).toNat < 16
    · cases (exec_skp_of_lt hk).symm.trans h
      exact exec_skp_of_lt (s := { s with fb := f, dirty := d }) hk
    · have hk : 15 < (s.reg x).toNat := by omega
      cases (exec_skp_of_gt hk).symm.trans h
      exact exec_skp_of_gt (s := { s with fb := f, dirty := d }) hk
  | sknp x =>
    by_cases hk : (s.reg x).toNat < 16
    · cases (exec_sknp_of_lt hk).symm.trans h
      exact exec_sknp_of_lt (s := { s with fb := f, dirty := d }) hk
    · have hk : 15 < (s.reg x).toNat := by omega
      cases (exec_sknp_of_gt hk).symm.trans h
      exact exec_sknp_of_gt (s := { s with fb := f, dirty := d }) hk
  | ldVxK x =>
    cases hk : s.keyScan with
    | none =>
      cases (exec_ldVxK_of_none x hk).symm.trans h
      exact exec_ldVxK_of_none (s := { s with fb := f, dirty := d }) x hk
    | some k =>
      cases (exec_ldVxK_of_some x hk).symm.trans h
      exact exec_ldVxK_of_some (s := { s with fb := f, dirty := d }) x hk
  | _ =>
    have hkey : t.key = s.key := (eachPartHasItsWriters _ s t h).1
    have hports := exec_withPorts f d s.key id h
    exact hports.trans (by rw [State.withPorts, ← hkey])

/-- Settles O24: 00E0 writes the same display whatever it was, every other instruction passes it on. -/
theorem displayIsReadOnlyByDraw : Obligations.DisplayIsReadOnlyByDraw := by
  intro i s t f d hdrw h
  by_cases hcls : i = .cls
  · subst hcls
    cases (exec_cls s).symm.trans h
    exact ⟨_, exec_cls _, rfl⟩
  · exact ⟨_, exec_withDisplay f d hcls hdrw h, rfl⟩

/-- Settles O26: the display instructions do not read the keys either. -/
theorem keysAreReadOnlyByThree : Obligations.KeysAreReadOnlyByThree := by
  intro i s t k hi h
  cases i with
  | skp x => exact absurd rfl (hi x).1
  | sknp x => exact absurd rfl (hi x).2.1
  | ldVxK x => exact absurd rfl (hi x).2.2
  | cls =>
    cases (exec_cls s).symm.trans h
    exact exec_cls { s with key := k }
  | drw x y n =>
    by_cases hdata : s.OutOfRange (.drw x y n)
    · cases (exec_of_outOfRange hdata).symm.trans h
      exact exec_of_outOfRange (s := { s with key := k }) hdata
    · obtain ⟨sprite, hread⟩ := exists_readSpan_sprite hdata
      cases (exec_drw_of_some hread).symm.trans h
      exact exec_drw_of_some (s := { s with key := k }) hread
  | _ =>
    obtain ⟨hfb, hdirty⟩ := display_eq_of_exec (by simp) (by simp) h
    have hports := exec_withPorts s.fb s.dirty k id h
    exact hports.trans (by rw [State.withPorts, hfb, hdirty])

end Sys2Proof.Machine
end

section
/-!
The step (spec/40_step_cycle.md R90 to R96): its equations, one per way through it; its outcomes and signals; the
faults with their records; the tick; and the dirty flag, which no part of a step reads.
-/

namespace Sys2Proof.Machine

/-! ### One equation per way through the step -/

theorem step_of_halt {s : State} (h : s.halt = true) : step s = .next s := by
  rw [step, if_pos h]

theorem step_of_fetch_none {s : State} (hrun : s.halt = false) (hf : s.fetch = none) :
    step s = .next (s.raise .fetchOutOfRange s.pc) := by
  simp [step, hrun, hf]

theorem step_of_error {s : State} {w : Word} {e : DecodeReject} (hrun : s.halt = false) (hf : s.fetch = some w)
    (hd : decodeWord w = .error e) : step s = .next s.advance.tick := by
  simp [step, hrun, hf, hd, execUnrecognized]

theorem step_of_ok {s : State} {w : Word} {i : Instr} (hrun : s.halt = false) (hf : s.fetch = some w)
    (hd : decodeWord w = .ok i) : step s = finishStep (exec i s) := by
  simp [step, hrun, hf, hd]

theorem State.tick_eq (s : State) : s.tick = { s with dt := if s.dt = 0 then 0 else s.dt - 1 } := by
  unfold State.tick
  split
  case isTrue h => rw [← h]
  case isFalse => rfl

/-- Settles O13: the two bytes are the fetched word. -/
theorem stepRunsDecodedInstruction : Obligations.StepRunsDecodedInstruction := by
  intro s t i rest hrun hpc hdec hexec
  have hf := State.fetch_eq s
  rw [if_pos hpc] at hf
  have hd : decodeWord (wordOfBytes (s.mem.peek s.pc.toNat) (s.mem.peek (s.pc.toNat + 1))) = .ok i := by
    simp only [decodeBytes] at hdec
    split at hdec
    · cases hdec; assumption
    · cases hdec
  rw [step_of_ok hrun hf hd, hexec, finishStep_next, State.tick_eq]

/-! ### The fetch -/

/-- Settles O15: the equation of the fetch, as numbers. -/
theorem fetchReadsTwoBytes : Obligations.FetchReadsTwoBytes := by
  intro s
  refine ⟨fun hpc => ⟨_, ?_, wordOfBytes_toNat _ _⟩, fun hpc => ?_⟩
  · rw [State.fetch_eq, if_pos (by omega)]
  · rw [State.fetch_eq, if_neg (by omega)]

/-- Settles O16: no word, so the step raises. -/
theorem fetchPastMemoryFaults : Obligations.FetchPastMemoryFaults := fun s hrun hpc =>
  ⟨_, step_of_fetch_none hrun ((fetchReadsTwoBytes s).2 hpc), rfl, rfl, rfl, rfl, keepsAllButFault_raise s _ _⟩

/-- Settles O17: by induction on the number of steps, each of which answers the same state. -/
theorem haltIsSticky : Obligations.HaltIsSticky := by
  intro s n h
  induction n with
  | zero => rfl
  | succ n ih => rw [stepsFrom, step_of_halt h]; exact ih

/-! ### Outcomes and signals (R96; spec/60_exceptions.md R182) -/

/-- Exact matching (D19): the words that match no row are those the decoder rejects. -/
theorem recognized_eq_false_iff {w : Word} : recognized w = false ↔ ∃ e, decodeWord w = .error e := by
  rw [← Bool.not_eq_true, ← decoderAcceptsTableWords w]
  cases decodeWord w <;> simp

theorem stepOutputs_halted (s t : State) : (stepOutputs s t).halted = t.halt := by
  unfold stepOutputs
  cases stepOutcome s t <;> rfl

theorem stepOutputs_fault_iff {s t : State} : (stepOutputs s t).fault = true ↔ stepOutcome s t = .fault := by
  unfold stepOutputs
  cases stepOutcome s t <;> simp [outputsOf]

theorem stepOutputs_unrec_iff {s t : State} {w a : Word} :
    (stepOutputs s t).unrec = some (w, a) ↔ stepOutcome s t = .doneUnrecognized w a := by
  unfold stepOutputs
  cases stepOutcome s t <;> simp [outputsOf]

theorem stepOutputs_waiting_iff {s t : State} :
    (stepOutputs s t).waiting = true ↔ stepOutcome s t = .doneWaiting := by
  unfold stepOutputs
  cases stepOutcome s t <;> simp [outputsOf]

/-- Settles O14: the word is rejected, and the default arm is the advance with the tick. -/
theorem unrecognizedWordIsReportedAndIgnored : Obligations.UnrecognizedWordIsReportedAndIgnored := by
  intro s w hrun hf hrec
  obtain ⟨e, hd⟩ := recognized_eq_false_iff.1 hrec
  have hout : stepOutcome s s.advance.tick = .doneUnrecognized w s.pc :=
    stepOutcome_unrecognized hrun (by simpa using hrun) hf hd
  refine ⟨_, step_of_error hrun hf hd, State.tick_pc _, State.tick_dt_toNat _, hout, stepOutputs_unrec_iff.2 hout, ?_⟩
  simp [KeepsRegs, KeepsIndex, KeepsStack, KeepsDisplay, KeepsInputs, KeepsFault, KeepsMemory]

/-- Whether the step waits, in terms of the instruction it decodes. -/
theorem findsNoKey_iff {s : State} {w : Word} {i : Instr} (hf : s.fetch = some w) (hd : decodeWord w = .ok i) :
    s.FindsNoKey ↔ s.waitsOn i = true := by
  simp [State.FindsNoKey, State.waitsOn_iff, hf, hd]

/-- The rows of R96: the outcome of a step with the state it leaves; a fault is one of the fetch or one of the
instruction. -/
inductive StepRow (s : State) : State → StepOutcome → Prop
  | halted (hh : s.halt = true) : StepRow s s .halted
  | fetchFault (hrun : s.halt = false) (hf : s.fetch = none) : StepRow s (s.raise .fetchOutOfRange s.pc) .fault
  | unrecognized {w : Word} (hrun : s.halt = false) (hf : s.fetch = some w) (hrec : recognized w = false) :
    StepRow s s.advance.tick (.doneUnrecognized w s.pc)
  | waiting (hrun : s.halt = false) (hkey : s.FindsNoKey) : StepRow s s.tick .doneWaiting
  | ran {w : Word} {i : Instr} {u : State} (hrun : s.halt = false) (hf : s.fetch = some w) (hd : decodeWord w = .ok i)
    (hkey : ¬ s.FindsNoKey) (hu : exec i s = .next u) (hhalt : u.halt = false) : StepRow s u.tick .done
  | raised {w : Word} {i : Instr} {c : FaultCause} {v : Word} (hrun : s.halt = false) (hf : s.fetch = some w)
    (hd : decodeWord w = .ok i) (hkey : ¬ s.FindsNoKey) : StepRow s (s.raise c v) .fault

theorem step_row (s : State) : ∃ t, step s = .next t ∧ StepRow s t (stepOutcome s t) := by
  obtain ⟨t, ht, hcases⟩ := step_cases s
  refine ⟨t, ht, ?_⟩
  rcases hcases with ⟨hh, rfl⟩ | ⟨hrun, hf, rfl⟩ | ⟨hrun, w, e, hf, hd, rfl⟩ |
    ⟨hrun, w, i, hf, hd, ⟨u, hu, ⟨hhalt, -⟩, rfl⟩ | ⟨c, v, -, hu, rfl⟩⟩
  · rw [stepOutcome_halted hh]
    exact .halted hh
  · rw [stepOutcome_raise hrun]
    exact .fetchFault hrun hf
  · rw [stepOutcome_unrecognized hrun (by simpa using hrun) hf hd]
    exact .unrecognized hrun hf (recognized_eq_false_iff.2 ⟨e, hd⟩)
  · have hhalt : u.halt = false := hhalt.trans hrun
    rw [stepOutcome_ran hrun (by simpa using hhalt) hf hd]
    split
    case isTrue hwait =>
      cases (exec_of_waitsOn hwait).symm.trans hu
      exact .waiting hrun ((findsNoKey_iff hf hd).2 hwait)
    case isFalse hwait => exact .ran hrun hf hd (mt (findsNoKey_iff hf hd).1 hwait) hu hhalt
  · rw [stepOutcome_raise hrun]
    refine .raised hrun hf hd fun hkey => ?_
    have hraised := (exec_of_waitsOn ((findsNoKey_iff hf hd).1 hkey)).symm.trans hu
    have hhalt : s.halt = true := congrArg State.halt (Host.Outcome.next.inj hraised)
    simp [hrun] at hhalt

theorem State.tick_eq_with_dt (s : State) : s.tick = { s with dt := s.tick.dt } := by
  rw [State.tick_eq]

/-- A wait has fetched a word, and one the table knows. -/
theorem fetched_of_findsNoKey {s : State} (h : s.FindsNoKey) : ∃ w, s.fetch = some w ∧ recognized w = true := by
  obtain ⟨⟨w, x, hf, hd⟩, -⟩ := h
  exact ⟨w, hf, (decoderAcceptsTableWords w).1 ⟨_, hd⟩⟩

/-! The column "when" of R96 -/

section
variable {s t : State} {o : StepOutcome}

theorem StepRow.halted_iff (h : StepRow s t o) : o = .halted ↔ s.halt = true := by
  cases h <;> simp [*]

theorem StepRow.fault_iff (h : StepRow s t o) : o = .fault ↔ s.halt = false ∧ t.halt = true := by
  cases h <;> simp [*]

theorem StepRow.unrecognized_iff (h : StepRow s t o) (w a : Word) : o = .doneUnrecognized w a ↔
    s.halt = false ∧ s.fetch = some w ∧ recognized w = false ∧ a = s.pc := by
  have hknown {w' : Word} (hf : s.fetch = some w') (hrec : recognized w' = true) :
      ¬ (s.halt = false ∧ s.fetch = some w ∧ recognized w = false ∧ a = s.pc) := by
    rintro ⟨-, hf', hrec', -⟩
    cases hf.symm.trans hf'
    exact absurd (hrec.symm.trans hrec') (by simp)
  cases h with
  | halted hh => simp [hh]
  | fetchFault hrun hf => simp [hf]
  | unrecognized hrun hf hrec =>
    constructor
    · intro e; cases e; exact ⟨hrun, hf, hrec, rfl⟩
    · rintro ⟨-, hf', -, rfl⟩; cases hf.symm.trans hf'; rfl
  | waiting hrun hkey =>
    obtain ⟨w', hf, hrec⟩ := fetched_of_findsNoKey hkey
    exact iff_of_false (by simp) (hknown hf hrec)
  | ran hrun hf hd | raised hrun hf hd =>
    exact iff_of_false (by simp) (hknown hf ((decoderAcceptsTableWords _).1 ⟨_, hd⟩))

theorem StepRow.waiting_iff (h : StepRow s t o) : o = .doneWaiting ↔ s.halt = false ∧ s.FindsNoKey := by
  cases h with
  | fetchFault hrun hf => simp [State.FindsNoKey, hf]
  | unrecognized hrun hf hrec =>
    obtain ⟨e, hd⟩ := recognized_eq_false_iff.1 hrec
    simp [State.FindsNoKey, hf, hd]
  | _ => simp [*]

theorem StepRow.done_iff (h : StepRow s t o) : o = .done ↔
    s.halt = false ∧ t.halt = false ∧ (∃ w i, s.fetch = some w ∧ decodeWord w = .ok i) ∧ ¬ s.FindsNoKey := by
  cases h with
  | unrecognized hrun hf hrec =>
    obtain ⟨e, hd⟩ := recognized_eq_false_iff.1 hrec
    simp [hf, hd]
  | _ => simp [*]

/-! The column "state change" of R96 -/

theorem StepRow.eq_of_halted (h : StepRow s t .halted) : t = s := by
  cases h; rfl

theorem StepRow.keeps_of_fault (h : StepRow s t .fault) : KeepsAllButFault s t := by
  cases h <;> exact keepsAllButFault_raise s _ _

theorem StepRow.eq_of_unrecognized {w a : Word} (h : StepRow s t (.doneUnrecognized w a)) :
    t = { s with pc := s.pc + 2, dt := t.dt } ∧ t.dt.toNat = s.dt.toNat - 1 := by
  cases h; exact ⟨State.tick_eq_with_dt _, State.tick_dt_toNat _⟩

theorem StepRow.eq_of_waiting (h : StepRow s t .doneWaiting) :
    t = { s with dt := t.dt } ∧ t.dt.toNat = s.dt.toNat - 1 := by
  cases h; exact ⟨State.tick_eq_with_dt _, State.tick_dt_toNat _⟩

theorem StepRow.exec_of_done (h : StepRow s t .done) : ∃ w i u, s.fetch = some w ∧ decodeWord w = .ok i ∧
    exec i s = .next u ∧ t = { u with dt := t.dt } ∧ t.dt.toNat = u.dt.toNat - 1 := by
  cases h with
  | ran hrun hf hd hkey hu => exact ⟨_, _, _, hf, hd, hu, State.tick_eq_with_dt _, State.tick_dt_toNat _⟩

end

/-- Settles O18: the two columns of R96, and a signal is given exactly in the states of its outcome. -/
theorem fiveOutcomesOfAStep : Obligations.FiveOutcomesOfAStep := by
  intro s
  obtain ⟨t, ht, hrow⟩ := step_row s
  exact ⟨t, ht, hrow.halted_iff, hrow.fault_iff, hrow.unrecognized_iff, hrow.waiting_iff, hrow.done_iff,
    fun e => (e ▸ hrow).eq_of_halted, fun e => (e ▸ hrow).keeps_of_fault, fun _ _ e => (e ▸ hrow).eq_of_unrecognized,
    fun e => (e ▸ hrow).eq_of_waiting, fun e => (e ▸ hrow).exec_of_done, stepOutputs_halted s t,
    stepOutputs_fault_iff.trans hrow.fault_iff, fun w a => stepOutputs_unrec_iff.trans (hrow.unrecognized_iff w a),
    stepOutputs_waiting_iff.trans hrow.waiting_iff⟩

/-! ### Faults and the tick, over all steps -/

/-- Settles O19: the fetch or the instruction raised; `Raises` lists the instructions' causes. -/
theorem faultsArePreciseAndNamed : Obligations.FaultsArePreciseAndNamed := by
  intro s t hrun hstep hhalt
  obtain ⟨t', ht', hcases⟩ := step_cases s
  cases ht'.symm.trans hstep
  rcases hcases with ⟨hh, -⟩ | ⟨-, hf, rfl⟩ | ⟨-, w, e, -, -, rfl⟩ |
    ⟨-, w, i, hf, -, ⟨u, -, ⟨hu, -⟩, rfl⟩ | ⟨c, v, -, hexec, rfl⟩⟩
  · simp [hrun] at hh
  · have hpc : 4095 ≤ s.pc.toNat := by
      by_contra hlt
      obtain ⟨w, hw, -⟩ := (fetchReadsTwoBytes s).1 (by omega)
      simp [hf] at hw
    exact ⟨keepsAllButFault_raise s _ _, rfl, .inl ⟨rfl, hpc, rfl⟩⟩
  · simp [hrun] at hhalt
  · simp [hu, hrun] at hhalt
  · obtain ⟨c', v', hr, heq⟩ | ⟨-, he⟩ := exec_inv hexec
    · rw [heq]
      refine ⟨keepsAllButFault_raise s _ _, rfl, .inr ?_⟩
      cases hr with
      | overflow h => exact .inl ⟨rfl, h, rfl⟩
      | underflow h => exact .inr (.inl ⟨rfl, h, rfl⟩)
      | data h => exact .inr (.inr (.inl ⟨rfl, dataInfo_toNat s⟩))
      | @skp x h | @sknp x h => exact .inr (.inr (.inr ⟨rfl, x, h, byteWord_toNat _⟩))
    · have hh : s.halt = true := he.halt_eq.symm
      simp [hrun] at hh

/-- Settles O20: only Fx15 writes the timer before the tick. -/
theorem completedStepTicksTheTimer : Obligations.CompletedStepTicksTheTimer := by
  intro s t hrun hstep hhalt
  obtain ⟨t', ht', hcases⟩ := step_cases s
  cases ht'.symm.trans hstep
  rcases hcases with ⟨hh, -⟩ | ⟨-, hf, rfl⟩ | ⟨-, w, e, hf, hd, rfl⟩ |
    ⟨-, w, i, hf, hd, ⟨u, hu, -, rfl⟩ | ⟨c, v, -, -, rfl⟩⟩
  · simp [hrun] at hh
  · simp at hhalt
  · refine .inr ⟨fun w' x hf' hd' => ?_, State.tick_dt_toNat _⟩
    cases hf.symm.trans hf'
    simp [hd] at hd'
  · by_cases hi : ∃ x, i = .ldDtVx x
    · obtain ⟨x, rfl⟩ := hi
      cases (exec_ldDtVx x s).symm.trans hu
      exact .inl ⟨w, x, hf, hd, State.tick_dt_toNat _⟩
    · have hdt : u.dt = s.dt := by
        by_contra hne
        obtain ⟨-, -, -, -, -, hwriters, -⟩ := eachPartHasItsWriters i s u hu
        exact hi (hwriters hne)
      refine .inr ⟨?_, hdt ▸ State.tick_dt_toNat u⟩
      intro w' x hf' hd'
      cases hf.symm.trans hf'
      exact hi ⟨x, Except.ok.inj (hd.symm.trans hd')⟩
  · simp at hhalt

/-! ### The dirty flag through a whole step (R34) -/

/-- What O25 says of one instruction: another dirty flag before makes a difference to nothing but the dirty flag. -/
def IgnoresDirty (d : Bool) (t u : State) : Prop :=
  u = { t with dirty := u.dirty } ∧ (u.dirty = t.dirty ∨ u.dirty = d)

theorem exec_withDirty {i : Instr} {s t : State} (d : Bool) (h : exec i s = .next t) :
    ∃ u, exec i { s with dirty := d } = .next u ∧ IgnoresDirty d t u := by
  by_cases hcls : i = .cls
  · subst hcls
    cases (exec_cls s).symm.trans h
    exact ⟨_, exec_cls _, rfl, .inl rfl⟩
  by_cases hdrw : ∃ x y n, i = .drw x y n
  · obtain ⟨x, y, n, rfl⟩ := hdrw
    by_cases hdata : s.OutOfRange (.drw x y n)
    · cases (exec_of_outOfRange hdata).symm.trans h
      exact ⟨_, exec_of_outOfRange (s := { s with dirty := d }) hdata, rfl, .inr rfl⟩
    · obtain ⟨sprite, hread⟩ := exists_readSpan_sprite hdata
      cases (exec_drw_of_some hread).symm.trans h
      exact ⟨_, exec_drw_of_some (s := { s with dirty := d }) hread, rfl, .inl rfl⟩
  · have hdrw : ∀ x y n, i ≠ .drw x y n := fun x y n e => hdrw ⟨x, y, n, e⟩
    obtain ⟨hfb, -⟩ := display_eq_of_exec hcls hdrw h
    exact ⟨_, exec_withDisplay s.fb d hcls hdrw h, by rw [← hfb], .inr rfl⟩

theorem State.tick_withDirty (s : State) (d : Bool) :
    State.tick { s with dirty := d } = { s.tick with dirty := d } := by
  unfold State.tick
  split <;> rfl

theorem finishStep_ignoresDirty {d : Bool} {t u : State} (h : IgnoresDirty d t u) :
    ∃ u', finishStep (.next u) = .next u' ∧ IgnoresDirty d (if t.halt then t else t.tick) u' := by
  obtain ⟨hu, hd⟩ := h
  have hhalt : u.halt = t.halt := by rw [hu]
  refine ⟨_, finishStep_next u, ?_⟩
  rw [hhalt]
  split
  · exact ⟨hu, hd⟩
  · refine ⟨?_, by simpa using hd⟩
    rw [State.tick_dirty]
    conv_lhs => rw [hu]
    exact State.tick_withDirty t u.dirty

/-- Settles O25: the fetch and the tick do not read the flag, and the instruction passes it on or sets it. -/
theorem dirtyFlagIsNeverRead : Obligations.DirtyFlagIsNeverRead := by
  intro s t d h
  by_cases hh : s.halt = true
  · cases (step_of_halt hh).symm.trans h
    exact ⟨_, step_of_halt (s := { s with dirty := d }) hh, rfl, .inr rfl⟩
  have hrun : s.halt = false := by simpa using hh
  cases hf : s.fetch with
  | none =>
    cases (step_of_fetch_none hrun hf).symm.trans h
    exact ⟨_, step_of_fetch_none (s := { s with dirty := d }) hrun hf, rfl, .inr rfl⟩
  | some w =>
    cases hd : decodeWord w with
    | error e =>
      cases (step_of_error hrun hf hd).symm.trans h
      have htick := State.tick_withDirty s.advance d
      exact ⟨_, (step_of_error (s := { s with dirty := d }) hrun hf hd).trans (congrArg _ htick), rfl, .inr rfl⟩
    | ok i =>
      obtain ⟨v, hv, -⟩ := exec_runs i s
      have hs := step_of_ok hrun hf hd
      rw [hv, finishStep_next] at hs
      cases hs.symm.trans h
      obtain ⟨u, hu, hignores⟩ := exec_withDirty d hv
      have hs' := step_of_ok (s := { s with dirty := d }) hrun hf hd
      rw [hu] at hs'
      obtain ⟨u', hu', hignores'⟩ := finishStep_ignoresDirty hignores
      exact ⟨u', hs'.trans hu', hignores'⟩

end Sys2Proof.Machine
end

section
/-!
Call and return (spec/41_flow.md R101, R103), from the equations of the two instructions.
-/

namespace Sys2Proof.Machine

/-- Settles O29: the slot `SP` pointed at receives the advanced pc. -/
theorem callPushesReturnAddress : Obligations.CallPushesReturnAddress := by
  intro s nnn
  refine ⟨fun h => ⟨_, exec_call_of_lt nnn h, immWord_toNat nnn, rfl, fun k => ?slot, fun _ => rfl, rfl, rfl,
    ⟨rfl, rfl⟩, ⟨rfl, rfl⟩, ⟨rfl, rfl⟩, fun _ => rfl⟩,
    fun h => ⟨_, exec_call_of_full nnn h, rfl, rfl, keepsAllButFault_raise s _ _⟩⟩
  case slot => simp only [Vector.getElem_set, eq_comm]

/-- Settles O30: `SP - 1` is the slot of the newest entry. -/
theorem returnPopsIntoPc : Obligations.ReturnPopsIntoPc := by
  intro s
  refine ⟨fun k h => ⟨_, exec_ret_of_pos (by omega), ?entry, by simp only [h]; rfl, rfl, fun _ => rfl, rfl, rfl,
    ⟨rfl, rfl⟩, ⟨rfl, rfl⟩, ⟨rfl, rfl⟩, fun _ => rfl⟩,
    fun h => ⟨_, exec_ret_of_empty h, rfl, rfl, keepsAllButFault_raise s _ _⟩⟩
  case entry => simp only [h, Nat.add_sub_cancel]

/-- Settles O31: O29 for the call, then O30 at the slot the call wrote. -/
theorem callThenReturnComesBack : Obligations.CallThenReturnComesBack := by
  intro s t u nnn hlt hcall hstack hsp
  obtain ⟨t', ht', -, hsp', hslot, -⟩ := (callPushesReturnAddress s nnn).1 hlt
  cases ht'.symm.trans hcall
  obtain ⟨v, hv, hpc, hvsp, hvstack, -⟩ := (returnPopsIntoPc u).1 ⟨s.sp.val, hlt⟩ (hsp ▸ hsp')
  refine ⟨v, hv, ?_, Fin.ext hvsp, fun k hk => ?_⟩
  · have hnewest := hslot ⟨s.sp.val, hlt⟩
    rw [if_pos rfl] at hnewest
    rw [hpc, ← hnewest, hstack]
  · rw [hvstack, hstack, hslot k, if_neg (by omega)]

end Sys2Proof.Machine
end

section
/-!
Arithmetic with a flag (spec/42_alu.md R117 to R121): the advance, the result in `V[x]`, then the flag in `VF`, which
wins when `x = 15` (R123). The frame and the two reads are proved once, for every result and flag.
-/

namespace Sys2Proof.Machine

theorem flagByte_toNat (f : Bool) : (flagByte f).toNat = if f then 1 else 0 := by
  cases f <;> rfl

/-- The frame of the five instructions. -/
theorem frame_advance_setRegFlag (s : State) (x : Nibble) (b : Byte) (f : Bool) :
    KeepsRegsBut (fun r => r = x ∨ r = 15) s (s.advance.setRegFlag x b f) ∧
      KeepsAllButRegs s (s.advance.setRegFlag x b f) := by
  refine ⟨fun r hr => ?_, rfl, ⟨rfl, rfl⟩, rfl, ⟨rfl, rfl⟩, ⟨rfl, rfl⟩, ⟨rfl, rfl⟩, fun _ => rfl⟩
  obtain ⟨hx, hf⟩ := not_or.1 hr
  rw [State.reg_setRegFlag, if_neg hf, if_neg hx, State.reg_advance]

/-- The result, where the flag does not overwrite it. -/
theorem reg_advance_setRegFlag {s : State} {x : Nibble} {b : Byte} {f : Bool} (hx : x ≠ 15) :
    (s.advance.setRegFlag x b f).reg x = b := by
  rw [State.reg_setRegFlag, if_neg hx, if_pos rfl]

/-- The flag, in every case. -/
theorem flag_advance_setRegFlag (s : State) (x : Nibble) (b : Byte) (f : Bool) :
    ((s.advance.setRegFlag x b f).reg 15).toNat = if f then 1 else 0 := by
  rw [State.reg_setRegFlag, if_pos rfl, flagByte_toNat]

/-- Settles O36: the sum at width 8, and the carry of the sum of naturals. -/
theorem addWritesSumAndCarry : Obligations.AddWritesSumAndCarry := by
  intro s x y
  refine ⟨_, exec_addReg x y s, rfl, fun hx => ?sum, ?carry, frame_advance_setRegFlag s x _ _⟩
  case sum => rw [reg_advance_setRegFlag hx, BitVec.toNat_add]
  case carry => simp [flagByte_toNat, carryOut]

/-- A difference at width 8: plus 256 when it would be negative (R118). -/
theorem sub_toNat (a b : Byte) :
    (a - b).toNat = if a.toNat < b.toNat then a.toNat + 256 - b.toNat else a.toNat - b.toNat := by
  split <;> bv_omega

/-- Settles O37: the two directions are one computation with the operands exchanged. -/
theorem subtractionsWriteDifferenceAndNoBorrow : Obligations.SubtractionsWriteDifferenceAndNoBorrow := by
  intro s x y
  refine ⟨⟨_, exec_subReg x y s, rfl, fun hx => ?sub, ?subFlag, frame_advance_setRegFlag s x _ _⟩,
    ⟨_, exec_subn x y s, rfl, fun hx => ?subn, ?subnFlag, frame_advance_setRegFlag s x _ _⟩⟩
  case sub | subn => rw [reg_advance_setRegFlag hx, sub_toNat]
  case subFlag | subnFlag => simp [flagByte_toNat, noBorrow]

theorem shiftedOutLow_toNat (a : Byte) : (if shiftedOutLow a then 1 else 0) = a.toNat % 2 := by
  simp only [shiftedOutLow, BitVec.getLsbD, Nat.testBit_zero, decide_eq_true_eq]
  split <;> omega

theorem shiftedOutHigh_toNat (a : Byte) : (if shiftedOutHigh a then 1 else 0) = a.toNat / 128 := by
  have := a.isLt
  simp only [shiftedOutHigh, BitVec.getLsbD, Nat.testBit_eq_decide_div_mod_eq, decide_eq_true_eq]
  split <;> omega

/-- Settles O38: a shift is a division or a doubling, and the dropped bit the remainder or the overflow. -/
theorem shiftsDropOneBit : Obligations.ShiftsDropOneBit := by
  intro s x y
  refine ⟨⟨_, exec_shr x y s, rfl, fun hx => ?half, ?low, frame_advance_setRegFlag s x _ _⟩,
    ⟨_, exec_shl x y s, rfl, fun hx => ?double, ?high, frame_advance_setRegFlag s x _ _⟩⟩
  case half => rw [reg_advance_setRegFlag hx, BitVec.toNat_ushiftRight, Nat.shiftRight_eq_div_pow, pow_one]
  case double => rw [reg_advance_setRegFlag hx, BitVec.toNat_shiftLeft, Nat.shiftLeft_eq, pow_one]
  case low => rw [flag_advance_setRegFlag, shiftedOutLow_toNat]
  case high => rw [flag_advance_setRegFlag, shiftedOutHigh_toNat]

end Sys2Proof.Machine
end

section
/-!
The index register and memory (spec/43_index_memory.md R131 to R135). Fx1E and Fx29 are the advance and one write of
`I`; the three instructions that move data are a span of reads or writes at `I`, or the data fault.
-/

namespace Sys2Proof.Machine

/-- Settles O40: the sum at width 16. -/
theorem addToIndexWrapsAt16Bits : Obligations.AddToIndexWrapsAt16Bits := by
  intro s x
  refine ⟨_, exec_addIVx x s, rfl, ?_, frame_advance_setI s _⟩
  rw [State.setI_i, BitVec.toNat_add, byteWord_toNat]

/-- Five times a byte fits in 16 bits (R132). -/
theorem glyphAddress_toNat (d : Byte) : (glyphAddress d).toNat = 5 * d.toNat := by
  have := d.isLt
  have hfive : (5 : Word).toNat = 5 := rfl
  rw [glyphAddress, BitVec.toNat_mul, byteWord_toNat, hfive]
  omega

/-- Settles O41: no mask, whatever the digit. -/
theorem fontAddressIsFiveTimesDigit : Obligations.FontAddressIsFiveTimesDigit := fun s x =>
  ⟨_, exec_ldFVx x s, rfl, glyphAddress_toNat _, frame_advance_setI s _⟩

/-! ### The data fault -/

/-- What each of the data instructions answers out of range (R63, D5). -/
theorem dataFault {s : State} {i : Instr} (h : s.OutOfRange i) :
    ∃ t, exec i s = .next t ∧ t.halt = true ∧ t.fault.cause = .dataOutOfRange ∧ t.fault.pc = s.pc ∧
      t.fault.info.toNat = max s.i.toNat 4096 ∧ KeepsAllButFault s t :=
  ⟨_, exec_of_outOfRange h, rfl, rfl, rfl, dataInfo_toNat s, keepsAllButFault_raise s _ _⟩

/-! ### Stores (R133, R134) -/

@[simp] theorem bcdDigits_length (b : Byte) : (bcdDigits b).length = 3 := rfl

/-- A decimal digit of a byte fits in a byte. -/
theorem bcdDigits_toNat (b : Byte) :
    (bcdDigits b)[0].toNat = b.toNat / 100 ∧ (bcdDigits b)[1].toNat = b.toNat / 10 % 10 ∧
      (bcdDigits b)[2].toNat = b.toNat % 10 := by
  have := b.isLt
  simp only [bcdDigits, List.getElem_cons_zero, List.getElem_cons_succ, BitVec.toNat_ofNat]
  omega

theorem outOfRange_ldBVx_iff {s : State} {x : Nibble} : s.OutOfRange (.ldBVx x) ↔ 4096 ≤ s.i.toNat + 2 := by
  simp only [State.OutOfRange, dataBytes]
  omega

/-- Settles O42: the span of the three digits. -/
theorem bcdStoresThreeDigits : Obligations.BcdStoresThreeDigits := by
  intro s x
  refine ⟨fun hin => ?_, fun hout => dataFault (outOfRange_ldBVx_iff.2 hout)⟩
  obtain ⟨m, hm⟩ := exists_writeSpan_bcdDigits (mt outOfRange_ldBVx_iff.1 (Nat.not_le.2 hin))
  refine ⟨_, exec_ldBVx_of_some hm, rfl, fun hwf => ?digits, fun b hb => writeSpan_other hm hb, fun _ => rfl, rfl,
    ⟨rfl, rfl⟩, rfl, ⟨rfl, rfl⟩, ⟨rfl, rfl⟩, rfl, rfl⟩
  case digits =>
    obtain ⟨hundreds, tens, units⟩ := bcdDigits_toNat (s.reg x)
    have hat := writeSpan_at hm hwf
    exact ⟨(congrArg _ (hat 0 (by simp))).trans hundreds, (congrArg _ (hat 1 (by simp))).trans tens,
      (congrArg _ (hat 2 (by simp))).trans units⟩

/-- The index register one past a block that fits in memory does not wrap. -/
theorem blockEnd_toNat {s : State} {x : Nibble} (h : s.i.toNat + x.toNat < 4096) :
    (s.i + BitVec.ofNat 16 (x.toNat + 1)).toNat = s.i.toNat + x.toNat + 1 := by
  rw [BitVec.toNat_add, BitVec.toNat_ofNat]
  omega

theorem outOfRange_block_iff {s : State} {x : Nibble} {i : Instr} (hi : dataBytes i = x.toNat + 1) :
    s.OutOfRange i ↔ 4096 ≤ s.i.toNat + x.toNat := by
  rw [State.OutOfRange, hi]
  omega

/-- Settles O43: the span of the register block. -/
theorem blockStoreWritesRegisters : Obligations.BlockStoreWritesRegisters := by
  intro s x
  have hrange := outOfRange_block_iff (s := s) (i := .ldMemVx x) rfl
  refine ⟨fun hin => ?_, fun hout => dataFault (hrange.2 hout)⟩
  obtain ⟨m, hm⟩ := exists_writeSpan_regBlock (mt hrange.1 (by omega))
  have hlen := State.regBlock_length s x
  refine ⟨_, exec_ldMemVx_of_some hm, rfl, blockEnd_toNat hin, fun hwf k hk => ?block,
    fun b hb => writeSpan_other hm (by rw [hlen]; exact hb), fun _ => rfl, ⟨rfl, rfl⟩, rfl, ⟨rfl, rfl⟩,
    ⟨rfl, rfl⟩, rfl, rfl⟩
  case block =>
    have hlt : k.toNat < (s.regBlock x).length := by omega
    rw [← State.regBlock_getElem s x k hlt]
    exact writeSpan_at hm hwf k.toNat hlt

/-! ### Loads (R135) -/

/-- A span of reads in range answers the bytes, the first from the lowest address. -/
theorem readSpan_getElem {m : Memory} {a n : Nat} {bs : List Byte} (h : readSpan m a n = some bs) (k : Nat)
    (hk : k < bs.length) : bs[k] = m.peek (a + k) := by
  rw [readSpan_eq] at h
  split at h
  · cases h; simp
  · cases h

/-- Settles O44: the span of reads, laid into the registers from `V[0]` up. -/
theorem blockLoadReadsRegisters : Obligations.BlockLoadReadsRegisters := by
  intro s x
  have hrange := outOfRange_block_iff (s := s) (i := .ldVxMem x) rfl
  refine ⟨fun hin => ?_, fun hout => dataFault (hrange.2 hout)⟩
  obtain ⟨bs, hbs⟩ := exists_readSpan_block (mt hrange.1 (by omega))
  have hlen := readSpan_length hbs
  refine ⟨_, exec_ldVxMem_of_some hbs, rfl, blockEnd_toNat hin, fun k hk => ?low, fun r hr => ?high, ⟨rfl, rfl⟩, rfl,
    ⟨rfl, rfl⟩, ⟨rfl, rfl⟩, ⟨rfl, rfl⟩, fun _ => rfl⟩
  case low =>
    have hlt : k.toNat < bs.length := by omega
    rw [State.reg_setRegBlock, dif_pos hlt, readSpan_getElem hbs]
  case high =>
    have hge : ¬ r.toNat < bs.length := by omega
    rw [State.reg_setRegBlock, dif_neg hge]
    rfl

/-- Settles O45: the load reads where the store wrote. -/
theorem blockStoreThenLoadRestores : Obligations.BlockStoreThenLoadRestores := by
  intro s t u x hwf hin hstore hmem hi
  obtain ⟨t', ht', -, -, hblock, -⟩ := (blockStoreWritesRegisters s x).1 hin
  cases ht'.symm.trans hstore
  obtain ⟨v, hv, -, -, hregs, -⟩ := (blockLoadReadsRegisters u x).1 (by rw [hi]; exact hin)
  refine ⟨v, hv, fun k hk => ?_⟩
  rw [hregs k hk, hmem, hi, hblock hwf k hk]

/-- Settles O46: the fetch reads the first two bytes the store wrote. -/
theorem storedWordIsFetched : Obligations.StoredWordIsFetched := by
  intro s t u x hwf hx hin hstore hmem hpc
  obtain ⟨t', ht', -, -, hblock, -⟩ := (blockStoreWritesRegisters s x).1 hin
  cases ht'.symm.trans hstore
  have hhi : t.mem.peek s.i.toNat = s.reg 0 := hblock hwf 0 (Nat.zero_le _)
  have hlo : t.mem.peek (s.i.toNat + 1) = s.reg 1 := hblock hwf 1 hx
  rw [State.fetch_eq, hpc, hmem, if_pos (by omega), hhi, hlo]

end Sys2Proof.Machine
end

section
/-!
The draw (spec/44_display.md R142, R145, R146), from the pixel and collision lemmas of the blitter.
-/

namespace Sys2Proof.Machine

/-! ### The positions of a sprite read from memory -/

/-- A sprite bit of 1 of the statement is a position of the blitter. -/
theorem mem_spriteHits_readSpan {s : State} {n : Nat} {sprite : List Byte}
    (hread : readSpan s.mem s.i.toNat n = some sprite) (x0 y0 : Byte) (r : Fin 32) (c : Fin 64) :
    (r, c) ∈ spriteHits x0 y0 0 sprite ↔ ∃ row col, SpriteBitSet s n row col ∧
      (y0.toNat + row) % 32 = r.val ∧ (x0.toNat + col) % 64 = c.val := by
  have hlen := readSpan_length hread
  rw [mem_spriteHits]
  constructor
  · rintro ⟨row, hrow, col, hcol, hbit, hr, hc⟩
    rw [readSpan_getElem hread] at hbit
    exact ⟨row, col, ⟨hlen ▸ hrow, hcol, hbit⟩, by simpa using hr, hc⟩
  · rintro ⟨row, col, ⟨hrow, hcol, hbit⟩, hr, hc⟩
    refine ⟨row, hlen ▸ hrow, col, hcol, ?_, by simpa using hr, hc⟩
    rw [readSpan_getElem hread]
    exact hbit

/-- The collision of a draw, in the terms of the statement. -/
theorem collision_readSpan {s : State} {n : Nat} {sprite : List Byte} (hn : n ≤ 32)
    (hread : readSpan s.mem s.i.toNat n = some sprite) (x0 y0 : Byte) :
    (s.fb.draw x0 y0 sprite).2 = true ↔ ∃ row col, SpriteBitSet s n row col ∧
      s.fb.pixel (Fin.ofNat 32 (y0.toNat + row)) (Fin.ofNat 64 (x0.toNat + col)) = true := by
  rw [FrameBuffer.collision_draw _ _ _ ((readSpan_length hread).trans_le hn), List.any_eq_true]
  constructor
  · rintro ⟨⟨r, c⟩, hmem, hon⟩
    obtain ⟨row, col, hbit, hr, hc⟩ := (mem_spriteHits_readSpan hread x0 y0 r c).1 hmem
    refine ⟨row, col, hbit, ?_⟩
    rwa [show Fin.ofNat 32 (y0.toNat + row) = r from Fin.ext hr,
      show Fin.ofNat 64 (x0.toNat + col) = c from Fin.ext hc]
  · rintro ⟨row, col, hbit, hon⟩
    exact ⟨_, (mem_spriteHits_readSpan hread x0 y0 _ _).2 ⟨row, col, hbit, rfl, rfl⟩, hon⟩

theorem outOfRange_drw_iff {s : State} {x y n : Nibble} :
    s.OutOfRange (.drw x y n) ↔ 1 ≤ n.toNat ∧ 4096 ≤ s.i.toNat + n.toNat - 1 := Iff.rfl

/-- Settles O48: pixel by pixel, and the flag by the collision. -/
theorem drawTogglesSpritePixels : Obligations.DrawTogglesSpritePixels := by
  intro s x y n
  refine ⟨fun hin => ?_, fun hout => dataFault (outOfRange_drw_iff.2 hout)⟩
  have hrange : ¬ s.OutOfRange (.drw x y n) := by rw [outOfRange_drw_iff]; omega
  obtain ⟨sprite, hread⟩ := exists_readSpan_sprite hrange
  have hn : n.toNat ≤ 32 := by have := n.isLt; omega
  have hvf (f : Bool) : (s.advance.setFlag f).reg 15 = flagByte f := by simp
  refine ⟨_, exec_drw_of_some hread, rfl, fun r c => ?pixel, ?collision, rfl, fun r hr => ?regs, rfl, ⟨rfl, rfl⟩, rfl,
    ⟨rfl, rfl⟩, ⟨rfl, rfl⟩, fun _ => rfl⟩
  case pixel =>
    rw [← mem_spriteHits_readSpan hread,
      FrameBuffer.pixel_draw _ _ _ ((readSpan_length hread).trans_le hn)]
    by_cases hm : (r, c) ∈ spriteHits (s.reg x) (s.reg y) 0 sprite <;> simp [hm]
  case collision =>
    have hcol := collision_readSpan hn hread (s.reg x) (s.reg y)
    cases hf : (s.fb.draw (s.reg x) (s.reg y) sprite).2 with
    | true => exact .inl ⟨hvf true, hcol.1 hf⟩
    | false =>
      refine .inr ⟨hvf false, fun row col hbit => ?_⟩
      rw [← Bool.not_eq_true]
      intro hon
      simpa [hf] using hcol.2 ⟨row, col, hbit, hon⟩
  case regs => exact (State.reg_setFlag s.advance _ r).trans (if_neg hr)

/-! ### The draw-twice law (R146) -/

/-- The default bit order (D8). -/
theorem spriteBit_eq (b : Byte) (col : Nat) : spriteBit b col = b.getLsbD (7 - col) := rfl

/-- A byte has a bit of 1 exactly when it is not 0; the bit order does not matter. -/
theorem exists_spriteBit_iff (b : Byte) : (∃ col, col < 8 ∧ spriteBit b col = true) ↔ b ≠ 0 := by
  constructor
  · rintro ⟨col, -, hbit⟩ rfl
    simp [spriteBit_eq] at hbit
  · intro hb
    by_contra hnone
    refine hb (BitVec.eq_of_getLsbD_eq fun j hj => ?_)
    have hbit : ¬ spriteBit b (7 - j) = true := fun h => hnone ⟨7 - j, by omega, h⟩
    rw [spriteBit_eq, show 7 - (7 - j) = j by omega] at hbit
    simpa using hbit

/-- A sprite lands on some pixel exactly when it has a bit of 1. -/
theorem exists_mem_spriteHits_iff {sprite : List Byte} (x0 y0 : Byte) :
    (∃ p, p ∈ spriteHits x0 y0 0 sprite) ↔ ∃ b ∈ sprite, b ≠ 0 := by
  constructor
  · rintro ⟨⟨r, c⟩, hp⟩
    obtain ⟨k, hk, col, hcol, hbit, -, -⟩ := mem_spriteHits.1 hp
    exact ⟨_, List.getElem_mem hk, (exists_spriteBit_iff _).1 ⟨col, hcol, hbit⟩⟩
  · rintro ⟨b, hb, hne⟩
    obtain ⟨k, hk, rfl⟩ := List.getElem_of_mem hb
    obtain ⟨col, hcol, hbit⟩ := (exists_spriteBit_iff _).2 hne
    exact ⟨(Fin.ofNat 32 (y0.toNat + (0 + k)), Fin.ofNat 64 (x0.toNat + col)),
      mem_spriteHits.2 ⟨k, hk, col, hcol, hbit, rfl, rfl⟩⟩

/-- Settles O49: two toggles of each position cancel, and the second draw meets exactly the pixels of the first. -/
theorem drawingTwiceRestores : Obligations.DrawingTwiceRestores := by
  intro fb x0 y0 sprite hlen
  have hlen : sprite.length ≤ 32 := by omega
  refine ⟨FrameBuffer.ext_pixel fun r c => ?_, ?_, ?_⟩
  · rw [FrameBuffer.pixel_draw _ _ _ hlen, FrameBuffer.pixel_draw _ _ _ hlen, Bool.xor_assoc, Bool.xor_self,
      Bool.xor_false]
  · simp [FrameBuffer.collision_draw _ _ _ hlen]
  · rw [← exists_mem_spriteHits_iff x0 y0, FrameBuffer.collision_draw _ _ _ hlen, List.any_eq_true]
    refine exists_congr fun p => and_iff_left_of_imp fun hp => ?_
    simpa [FrameBuffer.pixel_draw _ _ _ hlen] using hp

end Sys2Proof.Machine
end

section
/-!
Keys and the random byte (spec/45_keypad_timer_random.md R150 to R153, R157, R158).
-/

namespace Sys2Proof.Machine

/-! ### The key level (R150, R151) -/

/-- Settles O50: both skips are one write of the pc, or the same fault. -/
theorem skipOnKeyLevel : Obligations.SkipOnKeyLevel := by
  intro s x
  refine ⟨fun k hk => ?_, ?_⟩
  · have hlt : (s.reg x).toNat < 16 := by omega
    refine ⟨⟨_, exec_skp_of_lt hlt, ?skp, keepsAllButPc_setPc s _⟩,
      ⟨_, exec_sknp_of_lt hlt, ?sknp, keepsAllButPc_setPc s _⟩⟩
    case skp | sknp => simp only [State.setPc_pc, hk]
  · rintro hgt i (rfl | rfl)
    · exact ⟨_, exec_skp_of_gt hgt, rfl, rfl, rfl, byteWord_toNat _, keepsAllButFault_raise s _ _⟩
    · exact ⟨_, exec_sknp_of_gt hgt, rfl, rfl, rfl, byteWord_toNat _, keepsAllButFault_raise s _ _⟩

/-! ### The wait (R152) -/

/-- The scan answers the least key that is down (D10). -/
theorem keyScan_eq_some_of_least {s : State} {k : Nibble} (hdown : s.key[k.toNat]'k.isLt = true)
    (hleast : ∀ j : Nibble, j.toNat < k.toNat → s.key[j.toNat]'j.isLt = false) : s.keyScan = some k := by
  cases hscan : s.keyScan with
  | none => simp [State.keyScan_eq_none.1 hscan k] at hdown
  | some j =>
    obtain ⟨hj, hbelow⟩ := State.keyScan_eq_some hscan
    obtain hlt | heq | hgt := Nat.lt_trichotomy j.toNat k.toNat
    · simp [hleast j hlt] at hj
    · rw [BitVec.eq_of_toNat_eq heq]
    · simp [hbelow k hgt] at hdown

theorem zeroExtend_key_toNat (k : Nibble) : (k.zeroExtend 8 : Byte).toNat = k.toNat :=
  BitVec.toNat_setWidth_of_le (by decide)

/-- Settles O51: the scan, and one register write or nothing. -/
theorem waitForKeyStoresLeastKey : Obligations.WaitForKeyStoresLeastKey := by
  intro s x
  refine ⟨fun k hdown hleast => ?_, fun hnone => ?_⟩
  · have hscan : s.keyScan = some (BitVec.ofFin k) :=
      keyScan_eq_some_of_least hdown fun j hj => hleast ⟨j.toNat, j.isLt⟩ hj
    refine ⟨_, exec_ldVxK_of_some x hscan, rfl, ?_, frame_advance_setReg s x _⟩
    rw [reg_advance_setReg_self, zeroExtend_key_toNat]
    rfl
  · have hscan : s.keyScan = none := State.keyScan_eq_none.2 fun k => hnone ⟨k.toNat, k.isLt⟩
    exact ⟨_, exec_ldVxK_of_none x hscan, rfl, keepsAllButPc_setPc s s.pc⟩

/-! ### The random byte (R153, R157) -/

/-- Settles O52: the free byte of this draw under the mask, bit by bit. -/
theorem randomByteUnderMask : Obligations.RandomByteUnderMask := by
  intro s x nn
  refine ⟨_, exec_rnd x nn s, rfl, ⟨_, rfl, fun k _ => ?mask⟩, rfl, keepsRegsBut_advance_setReg s x _, rfl,
    ⟨rfl, rfl⟩, rfl, ⟨rfl, rfl⟩, rfl, ⟨rfl, rfl⟩, fun _ => rfl⟩
  case mask =>
    have hreg := reg_advance_setReg_self s x (Config.rnd s.draws &&& nn)
    exact (congrArg (·.getLsbD k) hreg).trans BitVec.getLsbD_and

end Sys2Proof.Machine
end

section
/-!
Runs of several steps: the timer read after it was set, the two states in which only the timer moves (the self-jump
and the wait, spec/60_exceptions.md R185, R186), and the run of the empty machine (spec/70_reset_and_hazards.md R191,
R197).
-/

namespace Sys2Proof.Machine

/-- A step whose instruction completes: its meaning, then the tick. -/
theorem step_of_exec {s u : State} {w : Word} {i : Instr} (hrun : s.halt = false) (hf : s.fetch = some w)
    (hd : decodeWord w = .ok i) (hu : exec i s = .next u) (hhalt : u.halt = false) : step s = .next u.tick :=
  (step_of_ok hrun hf hd).trans (finishStep_of_running hu hhalt)

/-- Settles O54: the tick of the first step comes between the write and the read. -/
theorem timerReadAfterSetLosesOne : Obligations.TimerReadAfterSetLosesOne := by
  intro s t u w w' x y hrun hf hd hset hf' hd' hread
  cases (step_of_exec hrun hf hd (exec_ldDtVx x s) hrun).symm.trans hset
  have hrun' : (State.tick { s.advance with dt := s.reg x }).halt = false := by simpa using hrun
  cases (step_of_exec hrun' hf' hd' (exec_ldVxDt y _) hrun').symm.trans hread
  rw [State.reg_tick, reg_advance_setReg_self, State.tick_dt_toNat]

/-! ### States in which only the timer moves -/

/-- The last of `n + 1` steps. -/
theorem stepsFrom_succ {n : Nat} {s t u : State} (h : stepsFrom n s = some t) (hstep : step t = .next u) :
    stepsFrom (n + 1) s = some u := by
  induction n generalizing s with
  | zero => cases h; rw [stepsFrom, hstep]; rfl
  | succ n ih =>
    rw [stepsFrom] at h ⊢
    split at h
    case h_1 v hv => exact ih h
    case h_2 => cases h

/-- A property under which a step is only the tick, and which the tick keeps, holds for ever; the timer counts down and
stops at 0. -/
theorem stepsFrom_of_ticks {P : State → Prop} (hP : ∀ t, P t → step t = .next t.tick ∧ P t.tick) {s : State}
    (hs : P s) (n : Nat) : ∃ t, stepsFrom n s = some t ∧ t = { s with dt := t.dt } ∧ t.dt.toNat = s.dt.toNat - n ∧ P t := by
  induction n with
  | zero => exact ⟨s, rfl, rfl, rfl, hs⟩
  | succ n ih =>
    obtain ⟨t, ht, heq, hdt, hPt⟩ := ih
    obtain ⟨hstep, hPt'⟩ := hP t hPt
    refine ⟨t.tick, stepsFrom_succ ht hstep, ?_, ?_, hPt'⟩
    · rw [State.tick_eq_with_dt, heq]
    · rw [State.tick_dt_toNat, hdt, Nat.sub_sub]

@[simp] theorem State.fetch_tick (s : State) : s.tick.fetch = s.fetch := by
  simp [State.fetch_eq]

theorem decodeWord_of_fieldOp_one {w : Word} (h : fieldOp w = 1) : decodeWord w = .ok (.jp (fieldNNN w)) := by
  simp [decodeWord, h]

/-- A step in a self-jump writes the pc it already has. -/
theorem State.WellEnded.step_eq {s : State} (h : s.WellEnded) : step s = .next s.tick ∧ s.tick.WellEnded := by
  obtain ⟨hrun, w, hf, hop, htarget⟩ := h
  have hjump := exec_jp (fieldNNN w) s
  rw [htarget] at hjump
  exact ⟨step_of_exec hrun hf (decodeWord_of_fieldOp_one hop) hjump hrun,
    by simpa using hrun, w, by simpa using hf, hop, by simpa using htarget⟩

/-- Settles O55: in a self-jump a step is only the tick. -/
theorem selfJumpIsAnEnd : Obligations.SelfJumpIsAnEnd := fun _ n h =>
  stepsFrom_of_ticks (fun _ => State.WellEnded.step_eq) h n

@[simp] theorem State.keyScan_tick (s : State) : s.tick.keyScan = s.keyScan := by
  simp [State.keyScan]

/-- A step that waits changes nothing before the tick. -/
theorem State.Waiting.step_eq {s : State} (h : s.Waiting) : step s = .next s.tick ∧ s.tick.Waiting := by
  obtain ⟨hrun, hscan, w, x, hf, hd⟩ := h
  exact ⟨step_of_exec hrun hf hd (exec_ldVxK_of_none x hscan) hrun,
    by simpa using hrun, by simpa using hscan, w, x, by simpa using hf, hd⟩

/-- A key set where none was down is the one the scan answers. -/
theorem keyScan_keySet {s : State} (h : s.keyScan = none) (k : Nibble) : (s.keySet k true).keyScan = some k := by
  have hup := State.keyScan_eq_none.1 h
  refine keyScan_eq_some_of_least (by simp) fun j hj => ?_
  simp only [State.keySet_key]
  rw [Vector.getElem_set_ne _ _ (by omega)]
  exact hup j

/-- The step after the host sets a key ends the wait. -/
theorem State.Waiting.step_keySet {s : State} (h : s.Waiting) (k : Nibble) :
    ∃ u x, step (s.keySet k true) = .next u ∧ (∃ w, s.fetch = some w ∧ decodeWord w = .ok (.ldVxK x)) ∧
      u.pc = s.pc + 2 ∧ (u.reg x).toNat = k.toNat := by
  obtain ⟨hrun, hscan, w, x, hf, hd⟩ := h
  have hkey := exec_ldVxK_of_some x (keyScan_keySet hscan k)
  refine ⟨_, x, step_of_exec (s := s.keySet k true) hrun hf hd hkey hrun, ⟨w, hf, hd⟩, by simp, ?_⟩
  rw [State.reg_tick, reg_advance_setReg_self, zeroExtend_key_toNat]

/-- Settles O56: while no key is down a step is only the tick, and the pc still addresses the Fx0A when one is set. -/
theorem onlyTheHostEndsAWait : Obligations.OnlyTheHostEndsAWait := by
  intro s n hs
  obtain ⟨t, ht, heq, hdt, hwait⟩ := stepsFrom_of_ticks (fun _ => State.Waiting.step_eq) hs n
  refine ⟨t, ht, heq, hdt, hwait, fun k => ?_⟩
  obtain ⟨u, x, hu, ⟨w, hf, hd⟩, hpc, hreg⟩ := hwait.step_keySet k
  have hmem : t.mem = s.mem := by rw [heq]
  have hpcs : t.pc = s.pc := by rw [heq]
  refine ⟨u, x, hu, ?_, hpcs ▸ hpc, hreg⟩
  rw [State.fetch_eq, hmem, hpcs] at hf
  split at hf
  · cases hf; exact hd
  · cases hf

/-! ### The empty machine -/

/-- Nothing is loaded: above the font every word is 0. -/
theorem fetch_reset_setPc {a : Nat} (hlo : 80 ≤ a) (hhi : a + 1 < 4096) :
    (State.reset.setPc (BitVec.ofNat 16 a)).fetch = some 0 := by
  have hpc : (State.reset.setPc (BitVec.ofNat 16 a)).pc.toNat = a := by
    rw [State.setPc_pc, BitVec.toNat_ofNat]
    omega
  rw [State.fetch_eq, hpc, if_pos hhi]
  have hzero (b : Nat) (hb : 80 ≤ b) : (State.reset.setPc (BitVec.ofNat 16 a)).mem.peek b = 0 := unlistedByte_above hb
  rw [hzero a hlo, hzero (a + 1) (by omega)]
  rfl

theorem step_reset_setPc {a : Nat} (hlo : 80 ≤ a) (hhi : a + 1 < 4096) :
    step (State.reset.setPc (BitVec.ofNat 16 a)) = .next (State.reset.setPc (BitVec.ofNat 16 (a + 2))) := by
  rw [step_of_error (e := .unrecognized0nnn) rfl (fetch_reset_setPc hlo hhi) rfl, BitVec.ofNat_add]
  rfl

theorem stepsFrom_reset {k : Nat} (h : k ≤ 1792) :
    stepsFrom k State.reset = some (State.reset.setPc (BitVec.ofNat 16 (0x200 + 2 * k))) := by
  induction k with
  | zero => rfl
  | succ k ih => exact stepsFrom_succ (ih (by omega)) (step_reset_setPc (by omega) (by omega))

/-- Settles O57: the pc climbs by 2 over words of 0, and 4096 is past memory. -/
theorem emptyMachineRunsOffMemory : Obligations.EmptyMachineRunsOffMemory := by
  refine ⟨fun k hk => ⟨_, _, stepsFrom_reset (Nat.le_of_lt hk), ?pc, step_reset_setPc (by omega) (by omega),
    ?outcome⟩, _, stepsFrom_succ (stepsFrom_reset (Nat.le_refl 1792)) (step_of_fetch_none rfl rfl), rfl, rfl⟩
  case pc =>
    rw [State.setPc_pc, BitVec.toNat_ofNat]
    omega
  case outcome =>
    exact stepOutcome_unrecognized (e := .unrecognized0nnn) rfl rfl (fetch_reset_setPc (by omega) (by omega)) rfl

end Sys2Proof.Machine
end
